-- ==== Sys2Proof/Word.lean ====
section
/-! DEFINITION. The word types of PXP: the 32-bit bus data word, the byte, the 24-bit bus address. -/

namespace Sys2Proof

/-- A 32-bit register, pixel word or bus data word (10_state.md R21, 20_memory.md R62). -/
abbrev Word := BitVec 32

/-- One byte: a PAYMEM byte or one channel of a pixel (20_memory.md R63, R66). -/
abbrev Byte := BitVec 8

/-- A bus address, 24 bits (10_state.md R20, 20_memory.md R60). -/
abbrev BusAddr := BitVec 24

end Sys2Proof
end

