-- ==== Sys2Proof/Config.lean ====
section
/-! DEFINITION. What an implementation of PXP fixes (00_scope.md R6) and the free values: values the
spec calls unspecified, given as constants with no body, so that no proof can use a particular one. -/

namespace Sys2Proof.Config

/-- The implementation parameters of 00_scope.md R6. They are fixed for one machine: no step writes
them, and a statement over every state holds for every value of them (log 2). -/
structure Params where
  /-- PIX_DEPTH, the number of 32-bit words of PIXMEM. -/
  pixDepth : Nat
  /-- PAY_DEPTH, the number of bytes of PAYMEM. -/
  payDepth : Nat
  /-- LAT_MAX, the bound on how long a command stays BUSY; `none` is the spec's OPEN (log 5). -/
  latMax : Option Nat
deriving DecidableEq, Repr

/-- The legal ranges of 00_scope.md R6. -/
abbrev Params.Legal (p : Params) : Prop :=
  1 ≤ p.pixDepth ∧ p.pixDepth ≤ 2 ^ 21 ∧ 1 ≤ p.payDepth ∧ p.payDepth ≤ 2 ^ 20

/-- The reference values of 00_scope.md R6. -/
def Params.reference : Params :=
  { pixDepth := 2 ^ 21, payDepth := 2 ^ 20, latMax := none }

/-- The two on-block memories (20_memory.md R60). -/
inductive Space where
  /-- PIXMEM, by byte offset 4j + k: channel k of word j (20_memory.md R67). -/
  | pix
  /-- PAYMEM, by byte index (20_memory.md R66). -/
  | pay
deriving DecidableEq, Repr

/-- FREE VALUE (log 1): what a memory byte holds at power-on. 70_reset_and_hazards.md R232: "holds an
unspecified value: a model draws each independently and a claim may not assume any of them". -/
opaque powerOnByte : Space → Nat → Byte

/-- FREE VALUE (log 7): the n-th "fresh draw" of a run, for a read while BUSY (20_memory.md R76) and
for the words and bytes an abandoned command leaves unspecified (70_reset_and_hazards.md R234). -/
opaque freeWord : Nat → Word

end Sys2Proof.Config
end

