-- ==== Sys2Proof/Syntax.lean ====
section
/-! DEFINITION. The commands of PXP, one constructor for each row of spec/opcode_table.json
(30_encoding.md R91). A command has no operand fields (R90): its operands are registers (R92). -/

namespace Sys2Proof

/-- The seven commands of 30_encoding.md R91. -/
inductive Instr where
  /-- ENCODE, 0x00000001: pack a frame into the image (44_commands.md R172). -/
  | encode
  /-- DECODE, 0x00000002: unpack a frame from the image (44_commands.md R173). -/
  | decode
  /-- FILL, 0x00000003: set every pixel to FILL_COLOR (44_commands.md R174). -/
  | fill
  /-- ADDR, 0x00000004: logical index to (x, y) (40_scan_order.md R114). -/
  | addr
  /-- INDEX, 0x00000005: (x, y) to logical index (40_scan_order.md R115). -/
  | index
  /-- CAPACITY, 0x00000006: encode and decode capacity (40_scan_order.md R116). -/
  | capacity
  /-- SRESET, 0x00000007: reset every register (44_commands.md R175). -/
  | sreset
deriving DecidableEq, Repr

end Sys2Proof
end

