-- ==== Sys2Proof/Machine/State.lean ====
section
/-! DEFINITION. The state of PXP as plain data: the register file (10_state.md R21), the engine (R43),
the two memories (20_memory.md R62, R66), and beside them the host that drives the bus (10_state.md R20).
It also declares why a step could stop: for PXP, never. -/

namespace Sys2Proof.Machine

open Sys2Proof.Config (Params)

/-! ## Why a step could stop -/

/-- The faults of the machine: none. PXP has no traps (60_exceptions.md R206): an error ends its command
and is reported in STATUS (R200), and a bus ERROR response changes no state (20_memory.md R72); both are
next states. -/
inductive Fault
deriving DecidableEq, Repr

/-- The refusals of the machine. No instruction is refused. -/
inductive Refusal where
  /-- Raised by `exec` for an instruction that has no meaning yet: none (safe: the model stops). -/
  | notModelled (mnemonic : String)
deriving DecidableEq, Repr

/-! ## Registers -/

/-- The error kinds of 60_exceptions.md R201, by which STATUS.ERRCODE is held (`none`: code 0). Codes
10 to 15 are never produced and have no constructor. -/
inductive ErrorKind where
  /-- Code 1: the frame does not fit, or a logical index or pixel lies outside the image. -/
  | capacityExceeded
  /-- Code 2: never raised by PXP. -/
  | invalidIdentifier
  /-- Code 3: the header value of the image is not valid. -/
  | corruptHeader
  /-- Code 4: too few pixels are present. -/
  | truncatedImage
  /-- Code 5: IMG_CH differs from CTRL.CH. -/
  | unsupportedGeneration
  /-- Code 6: the command word is not in the opcode map. -/
  | illegalCommand
  /-- Code 7: a legality predicate of 10_state.md R41 fails. -/
  | illegalConfig
  /-- Code 8: RAW framing with PLEN = 0. -/
  | emptyFrame
  /-- Code 9: the payload is larger than PAYMEM. -/
  | bufferOverflow
deriving DecidableEq, Repr

/-- The stored fields of STATUS (10_state.md R23). BUSY is the engine's phase (R43) and ERR is always
(ERRCODE ≠ 0), so neither is stored a second time; the reserved bits read 0. -/
structure Status where
  /-- Bit 1, DONE. -/
  done : Bool
  /-- Bit 3, WIGN. -/
  wign : Bool
  /-- Bits 11:8, ERRCODE, as the kind it codes. -/
  error : Option ErrorKind
  /-- Bit 12, ID_SENT. -/
  idSent : Bool
deriving DecidableEq, Repr

/-- The register file of 10_state.md R21, less STATUS (above) and CMD, which holds no state (R24). Each
register is stored in its implemented bits; the reserved bits read 0 and ignore writes (R39). -/
structure Regs where
  /-- 0x000 CTRL: PMODE 0, CH 3:1, FRAMING 4, ID_EN 5, IE 6 (R22). -/
  ctrl : BitVec 7
  /-- 0x00C IMG_W, bits 15:0 (R25). -/
  imgW : BitVec 16
  /-- 0x010 IMG_H, bits 15:0 (R26). -/
  imgH : BitVec 16
  /-- 0x014 IMG_CH, bits 2:0 (R27). -/
  imgCh : BitVec 3
  /-- 0x018 IMG_AVAIL (R28). -/
  imgAvail : Word
  /-- 0x01C FILL_COLOR (R29). -/
  fillColor : Word
  /-- 0x020 PLEN (R30). -/
  plen : Word
  /-- 0x024 FRAME_LEN, read-only (R31). -/
  frameLen : Word
  /-- 0x028 PAD_LEN, read-only (R32). -/
  padLen : Word
  /-- 0x02C CAP_ENC, read-only (R33). -/
  capEnc : Word
  /-- 0x030 CAP_DEC, read-only (R34). -/
  capDec : Word
  /-- 0x034 ARG (R35). -/
  arg : Word
  /-- 0x038 RES, read-only (R36). -/
  res : Word
  /-- 0x040 ID0, identifier bytes 0 to 3 (R37). -/
  id0 : Word
  /-- 0x044 ID1, identifier bytes 4 to 7 (R37). -/
  id1 : Word
  /-- 0x048 ID2, identifier bytes 8 to 11 (R37). -/
  id2 : Word
  /-- 0x04C ID3, identifier bytes 12 to 15 (R37). -/
  id3 : Word
  /-- 0x050 VB, the version/mode block (R38). -/
  vb : Word
deriving DecidableEq, Repr

/-! ## Engine -/

/-- The engine's phase (10_state.md R43), visible as STATUS.BUSY. -/
inductive Phase where
  /-- No command is being performed: STATUS.BUSY = 0. -/
  | idle
  /-- A command has been accepted and not completed: STATUS.BUSY = 1. -/
  | busy
deriving DecidableEq, Repr

/-- The engine state of 10_state.md R43, the analogue of a program counter. -/
structure Engine where
  /-- IDLE or BUSY. -/
  phase : Phase
  /-- The command word being performed. -/
  op : Word
  /-- The scan counter i: the logical index of the last pixel a command moved (not visible; log 6). -/
  scan : Nat
  /-- The byte counter j: the index of the last frame byte a command moved (not visible; log 6). -/
  byteIdx : Nat
deriving DecidableEq, Repr

/-! ## The host and the bus -/

/-- A bus response (10_state.md R20, 20_memory.md R72). -/
inductive Reply where
  /-- OKAY to a read, with the read data. -/
  | okayRead (data : Word)
  /-- OKAY to a write. -/
  | okayWrite
  /-- ERROR; a read gets the data 0. -/
  | error
deriving DecidableEq, Repr

/-- One instruction of a host program (30_encoding.md R98, R99). A name `r` is a number. RUN, EXEC, CHECK
and ACK are lists of these (Machine/HostProgram.lean). -/
inductive HostOp where
  /-- `SW a, v`: a 4-byte write. -/
  | sw (a : BusAddr) (v : Word)
  /-- `SH a, v`: a 2-byte write. -/
  | sh (a : BusAddr) (v : BitVec 16)
  /-- `SB a, v`: a 1-byte write. -/
  | sb (a : BusAddr) (v : Byte)
  /-- `LW r, a`: a 4-byte read. -/
  | lw (r : Nat) (a : BusAddr)
  /-- `LH r, a`: a 2-byte read, zero-extended. -/
  | lh (r : Nat) (a : BusAddr)
  /-- `LB r, a`: a 1-byte read, zero-extended. -/
  | lb (r : Nat) (a : BusAddr)
  /-- `WAIT`: `LW r, STATUS`, repeated while r[0] = 1. -/
  | wait (r : Nat)
deriving DecidableEq, Repr

/-- Who takes a turn (10_state.md R20, 70_reset_and_hazards.md R231). -/
inductive Turn where
  /-- The host performs its next bus access. -/
  | host
  /-- The engine completes the command it holds. -/
  | engine
  /-- `rst` is asserted and released. -/
  | rst
deriving DecidableEq, Repr

/-- The host side (log 3): what it has still to do and what it has seen on the bus. -/
structure HostSide where
  /-- The host's program, the next instruction first. -/
  prog : List HostOp
  /-- The host's named values. -/
  vars : List (Nat × Word)
  /-- The last response on the bus slave port, if there was an access. -/
  reply : Option Reply
deriving DecidableEq, Repr

/-! ## The whole state -/

/-- A memory: the bytes written so far, by offset, in one canonical form (strictly rising offsets). A
byte not listed holds no known value (Machine/Memory.lean, log 1). -/
abbrev Memory := List Host.Cell

/-- The state of PXP and of what drives it. -/
structure State where
  /-- The implementation parameters (00_scope.md R6); no step writes them. -/
  par : Params
  /-- The register file. -/
  regs : Regs
  /-- The stored fields of STATUS. -/
  status : Status
  /-- The engine. -/
  eng : Engine
  /-- PIXMEM, by byte offset 4j + k (20_memory.md R62, R67). -/
  pix : Memory
  /-- PAYMEM, by byte index (20_memory.md R66). -/
  pay : Memory
  /-- The host. -/
  host : HostSide
  /-- The turns still to be taken; when it is empty the engine goes first (log 4). -/
  sched : List Turn
  /-- How many host turns the present command has been BUSY (log 5). -/
  waited : Nat
  /-- The number of the next free value (log 7). -/
  draws : Nat
deriving DecidableEq, Repr

/-! ## Reset values -/

/-- Every register at its reset value, 0x00000000 (10_state.md R21). -/
def Regs.reset : Regs :=
  { ctrl := 0, imgW := 0, imgH := 0, imgCh := 0, imgAvail := 0, fillColor := 0, plen := 0,
    frameLen := 0, padLen := 0, capEnc := 0, capDec := 0, arg := 0, res := 0,
    id0 := 0, id1 := 0, id2 := 0, id3 := 0, vb := 0 }

/-- STATUS at its reset value, 0x00000000 (10_state.md R21, R23). -/
def Status.reset : Status := { done := false, wign := false, error := none, idSent := false }

/-- The engine after reset: IDLE (70_reset_and_hazards.md R231); `op` and the counters are 0 (log 6). -/
def Engine.reset : Engine := { phase := .idle, op := 0, scan := 0, byteIdx := 0 }

/-- The machine right after the first reset (70_reset_and_hazards.md R231, R232, R235): every register 0,
the engine IDLE, no memory byte known; the reference parameters (log 2); a host with nothing to do. -/
def State.reset : State :=
  { par := Params.reference, regs := Regs.reset, status := Status.reset, eng := Engine.reset,
    pix := [], pay := [], host := { prog := [], vars := [], reply := none },
    sched := [], waited := 0, draws := 0 }

end Sys2Proof.Machine
end

