-- ==== Sys2Proof/Machine/Memory.lean ====
section
/-! DEFINITION. The byte memories: one canonical list of (offset, byte) pairs, read and written a byte at
a time (20_memory.md R62, R66, R67). -/

namespace Sys2Proof.Machine

open Sys2Proof.Config (Space)

/-- The canonical form of a memory of `bound` bytes: offsets strictly rising and all below `bound`. An
unlisted offset holds no value of its own, so no entry can repeat it (log 1). -/
abbrev Memory.wf (bound : Nat) (m : Memory) : Prop :=
  m.Pairwise (fun p q => p.1 < q.1) ∧ ∀ p ∈ m, p.1 < bound

/-- What an unlisted offset reads as: the free value it holds since power-on (70_reset_and_hazards.md
R232; log 1). -/
def Memory.unlisted (sp : Space) (a : Nat) : Byte := Config.powerOnByte sp a

/-- The byte stored at an offset, if one has been written there. -/
def Memory.find (m : Memory) (a : Nat) : Option Byte :=
  match m with
  | [] => none
  | (b, v) :: rest => if a = b then some v else Memory.find rest a

/-- The byte an offset reads as. A read has no side effect and is repeatable (20_memory.md R73). -/
def Memory.read (sp : Space) (m : Memory) (a : Nat) : Byte :=
  (Memory.find m a).getD (Memory.unlisted sp a)

/-- Write one byte, keeping the offsets strictly rising. -/
def Memory.write (m : Memory) (a : Nat) (v : Byte) : Memory :=
  match m with
  | [] => [(a, v)]
  | (b, w) :: rest =>
    if a < b then (a, v) :: (b, w) :: rest
    else if a = b then (a, v) :: rest
    else (b, w) :: Memory.write rest a v

/-- Write a sequence of bytes at rising offsets from `a`. -/
def Memory.writeBytes (m : Memory) (a : Nat) (vs : List Byte) : Memory :=
  match vs with
  | [] => m
  | v :: rest => Memory.writeBytes (Memory.write m a v) (a + 1) rest

/-- Read n bytes at rising offsets from `a`. -/
def Memory.readBytes (sp : Space) (m : Memory) (a n : Nat) : List Byte :=
  (List.range n).map (fun k => Memory.read sp m (a + k))

end Sys2Proof.Machine
end

