-- ==== Sys2Proof/Machine/Bits.lean ====
section
/-! DEFINITION. Byte extraction and little-endian joining (00_scope.md R8, 20_memory.md R67). -/

namespace Sys2Proof.Machine

/-- Byte k of a word, `w[8k+7:8k]` (00_scope.md R8). -/
def byteOf (w : Word) (k : Nat) : Byte := w.extractLsb' (8 * k) 8

/-- The first n bytes of a word, the least significant first (20_memory.md R67). -/
def bytesLE (n : Nat) (w : Word) : List Byte := (List.range n).map (byteOf w)

/-- The word whose bytes are given, the least significant first; missing bytes are 0 (20_memory.md R67). -/
def wordLE (bs : List Byte) : Word :=
  match bs with
  | [] => 0
  | b :: rest => (wordLE rest <<< 8) ||| b.setWidth 32

/-- Byte k of an unbounded number, `n[8k+7:8k]` (00_scope.md R8). -/
def natByte (n k : Nat) : Byte := BitVec.ofNat 8 (n / 2 ^ (8 * k))

end Sys2Proof.Machine
end

