-- ==== Sys2Proof/Machine/Operands.lean ====
section
/-! DEFINITION. The constants of the format (00_scope.md R7), the derived values every command reads
(10_state.md R40), the legality predicates (R41), and the operands of ADDR and INDEX (30_encoding.md R92). -/

namespace Sys2Proof.Machine

/-! ## Constants of the format (00_scope.md R7) -/

/-- ID_LEN, the length of the identifier block. -/
def idLen : Nat := 16

/-- VB_LEN, the length of the version/mode block. -/
def vbLen : Nat := 4

/-- F_STRUCT, the fixed part of a STRUCTURED frame. -/
def fStruct : Nat := idLen + vbLen

/-- SENTINEL_BYTE, every identifier byte when no identifier is supplied. -/
def sentinelByte : Byte := 0xFF

/-- PAD_BYTE. -/
def padByte : Byte := 0x10

/-- ON, the channel value of a set bit in bit mode. -/
def onByte : Byte := 255

/-- OFF, the channel value of a clear bit in bit mode. -/
def offByte : Byte := 0

/-- BIT_SENTINEL, channel 2 of the third pixel of a bit-mode byte. -/
def bitSentinel : Byte := 0

/-! ## Fields of CTRL (10_state.md R22) -/

/-- CTRL.PMODE, bit 0: true is BIT. -/
def State.pmodeBit (s : State) : Bool := s.regs.ctrl.getLsbD 0

/-- CTRL.CH, bits 3:1. -/
def State.ctrlCh (s : State) : Nat := (s.regs.ctrl.extractLsb' 1 3).toNat

/-- CTRL.FRAMING, bit 4: true is STRUCTURED. -/
def State.structured (s : State) : Bool := s.regs.ctrl.getLsbD 4

/-- CTRL.ID_EN, bit 5. -/
def State.idEn (s : State) : Bool := s.regs.ctrl.getLsbD 5

/-- CTRL.IE, bit 6. -/
def State.intEn (s : State) : Bool := s.regs.ctrl.getLsbD 6

/-! ## Derived values (10_state.md R40) -/

/-- W, the image width. -/
def State.width (s : State) : Nat := s.regs.imgW.toNat

/-- H, the image height. -/
def State.height (s : State) : Nat := s.regs.imgH.toNat

/-- N, the number of pixels of the image. -/
def State.numPixels (s : State) : Nat := s.width * s.height

/-- CI, the channel count of the image. -/
def State.imgChannels (s : State) : Nat := s.regs.imgCh.toNat

/-- The packing mode and channel count, the tagged variant that every generation-dependent choice is
dispatched on (00_scope.md R3, 43_frame.md R157). -/
structure Codec where
  /-- BIT: bit mode, else byte mode. -/
  bit : Bool
  /-- C, the codec channel count, which is also the header width (41_header.md R120). -/
  ch : Nat
deriving DecidableEq, Repr

/-- The codec CTRL selects: BIT and C of 10_state.md R40. -/
def State.codec (s : State) : Codec := { bit := s.pmodeBit, ch := s.ctrlCh }

/-- F, the fixed part of the frame (10_state.md R40, 43_frame.md R150). -/
def State.fixedPart (s : State) : Nat := if s.structured then fStruct else 0

/-! ## Legality (10_state.md R41) -/

/-- DimOK. -/
abbrev State.DimOK (s : State) : Prop :=
  1 ≤ s.width ∧ 1 ≤ s.height ∧ s.numPixels ≤ s.par.pixDepth

/-- ImgOK. -/
abbrev State.ImgOK (s : State) : Prop := s.DimOK ∧ (s.imgChannels = 3 ∨ s.imgChannels = 4)

/-- CodecOK: C is 3 or 4, and bit mode has C = 3. -/
abbrev Codec.OK (k : Codec) : Prop := (k.ch = 3 ∨ k.ch = 4) ∧ ¬(k.bit = true ∧ k.ch = 4)

/-! ## Operands of ADDR and INDEX (30_encoding.md R92) -/

/-- The logical index ADDR reads: ARG[31:0]. -/
def State.argIndex (s : State) : Nat := s.regs.arg.toNat

/-- The x coordinate INDEX reads: ARG[15:0]. -/
def State.argX (s : State) : Nat := (s.regs.arg.extractLsb' 0 16).toNat

/-- The y coordinate INDEX reads: ARG[31:16]. -/
def State.argY (s : State) : Nat := (s.regs.arg.extractLsb' 16 16).toNat

end Sys2Proof.Machine
end

