-- ==== Sys2Proof/Machine/Frame.lean ====
section
/-! DEFINITION. The frame assembler and extractor (43_frame.md R150 to R156). -/

namespace Sys2Proof.Machine

/-- `PayRead(k)` (20_memory.md R66). -/
def State.payRead (s : State) (k : Nat) : Byte := Memory.read .pay s.pay k

/-- PLEN as a number (10_state.md R30). -/
def State.payloadLen (s : State) : Nat := s.regs.plen.toNat

/-- The payload bytes PAY[0 .. n−1]. -/
def State.payBytes (s : State) (n : Nat) : List Byte := Memory.readBytes .pay s.pay 0 n

/-- `IdBytes()`, the sixteen bytes of the identifier bank, byte j being byte (j mod 4) of ID(j div 4)
(10_state.md R37, 43_frame.md R152). -/
def Regs.idBytes (r : Regs) : List Byte :=
  bytesLE 4 r.id0 ++ bytesLE 4 r.id1 ++ bytesLE 4 r.id2 ++ bytesLE 4 r.id3

/-- The sentinel identifier: sixteen bytes 0xFF (43_frame.md R152). -/
def sentinelId : List Byte := List.replicate idLen sentinelByte

/-- L, the frame length ENCODE records: F + PLEN (43_frame.md R151). -/
def State.frameLength (s : State) : Nat := s.fixedPart + s.payloadLen

/-- The identifier block ENCODE writes: the bank when ID_EN = 1, else the sentinel (43_frame.md R152). -/
def State.idBlock (s : State) : List Byte := if s.idEn then s.regs.idBytes else sentinelId

/-- `FrameBytes`, the frame ENCODE packs (43_frame.md R151). -/
def State.frameBytes (s : State) : List Byte :=
  if s.structured then s.idBlock ++ bytesLE 4 s.regs.vb ++ s.payBytes s.payloadLen
  else s.payBytes s.payloadLen

/-- The identifier bank and VB after DECODE has extracted the frame fr with STRUCTURED framing: bytes 0 to
15 to ID0 to ID3, bytes 16 to 19 to VB (43_frame.md R154). -/
def Regs.takeBlocks (fr : List Byte) (r : Regs) : Regs :=
  { r with
    id0 := wordLE (fr.take 4)
    id1 := wordLE ((fr.drop 4).take 4)
    id2 := wordLE ((fr.drop 8).take 4)
    id3 := wordLE ((fr.drop 12).take 4)
    vb := wordLE ((fr.drop 16).take 4) }

/-- `IdSent(fr)`: with STRUCTURED framing, whether the sixteen identifier bytes are all 0xFF; with RAW
framing 0 (43_frame.md R156). -/
def idSentOf (structured : Bool) (fr : List Byte) : Bool :=
  structured && fr.take idLen == sentinelId

end Sys2Proof.Machine
end

