-- ==== Sys2Proof/Machine/ScanOrder.lean ====
section
/-! DEFINITION. The scan order (40_scan_order.md R110, R111), the pixel counts and the capacities (R113). -/

namespace Sys2Proof.Machine

/-- `address(i)`, as (x, y): each row right to left, rows top to bottom (40_scan_order.md R110). -/
def address (w i : Nat) : Nat × Nat := (w - 1 - i % w, i / w)

/-- `index(x, y)`, the inverse (40_scan_order.md R111). -/
def indexOf (w x y : Nat) : Nat := y * w + (w - 1 - x)

/-- `ceil(a / b)` (00_scope.md R8). -/
def ceilDiv (a b : Nat) : Nat := (a + b - 1) / b

/-- NPIX(P), the data pixels ENCODE writes for a padded frame of P bytes (40_scan_order.md R113). -/
def Codec.npix (k : Codec) (p : Nat) : Nat := if k.bit then 3 * p else p / k.ch

/-- NREAD(L), the data pixels DECODE reads for a frame of L bytes (40_scan_order.md R113). -/
def Codec.nread (k : Codec) (l : Nat) : Nat := if k.bit then 3 * l else ceilDiv l k.ch

/-- HMAX, the largest value the C-byte header holds (40_scan_order.md R113, 41_header.md R123). -/
def Codec.hmax (k : Codec) : Nat := 2 ^ (8 * k.ch) - 1

/-- ECAP, the largest frame length ENCODE accepts for an image of n pixels (40_scan_order.md R113). -/
def Codec.ecap (k : Codec) (n : Nat) : Nat :=
  if k.bit then min (3 * ((n - 1) / 9)) k.hmax else min ((n - 1) * k.ch) k.hmax

/-- DCAP, the largest header value DECODE accepts for an image of n pixels (40_scan_order.md R113). -/
def Codec.dcap (k : Codec) (n : Nat) : Nat :=
  if k.bit then (n - 1) / 3 else (n - 1) * k.ch

end Sys2Proof.Machine
end

