-- ==== Sys2Proof/Machine/Pixels.lean ====
section
/-! DEFINITION. PixRead and PixWrite on PIXMEM (20_memory.md R63, R64, R65), and writing a run of pixels in
scan order (42_packer.md R142). -/

namespace Sys2Proof.Machine

/-- The four channels of a pixel word (20_memory.md R63). -/
structure Pixel where
  /-- Channel 0, R, bits 7:0. -/
  c0 : Byte
  /-- Channel 1, G, bits 15:8. -/
  c1 : Byte
  /-- Channel 2, B, bits 23:16. -/
  c2 : Byte
  /-- Channel 3, A, bits 31:24. -/
  c3 : Byte
deriving DecidableEq, Repr

/-- Channel k of a pixel, 0 ≤ k ≤ 3 (20_memory.md R63). -/
def Pixel.chan (p : Pixel) (k : Nat) : Byte :=
  match k with
  | 0 => p.c0
  | 1 => p.c1
  | 2 => p.c2
  | _ => p.c3

/-- The offset in PIXMEM of channel 0 of pixel (x, y): word y·W + x (20_memory.md R64, R67). -/
def pixelBase (w x y : Nat) : Nat := 4 * (y * w + x)

/-- `PixRead(x, y)` (20_memory.md R64). -/
def pixRead (w : Nat) (m : Memory) (x y : Nat) : Pixel :=
  let b := pixelBase w x y
  { c0 := Memory.read .pix m b, c1 := Memory.read .pix m (b + 1),
    c2 := Memory.read .pix m (b + 2), c3 := Memory.read .pix m (b + 3) }

/-- `PixWrite(x, y, vs)`: channels 0 to n−1 are written, the others unchanged (20_memory.md R65). -/
def pixWrite (w : Nat) (m : Memory) (x y : Nat) (vs : List Byte) : Memory :=
  Memory.writeBytes m (pixelBase w x y) vs

/-- `PixRead(address(i))`. -/
def pixReadAt (w : Nat) (m : Memory) (i : Nat) : Pixel :=
  pixRead w m (address w i).1 (address w i).2

/-- `PixWrite(address(i), vs)`, `PixWrite(address(i + 1), …)`, … in increasing logical index (42_packer.md
R142). -/
def putPixels (w : Nat) (m : Memory) (i : Nat) (gs : List (List Byte)) : Memory :=
  match gs with
  | [] => m
  | g :: rest => putPixels w (pixWrite w m (address w i).1 (address w i).2 g) (i + 1) rest

end Sys2Proof.Machine
end

