-- ==== Sys2Proof/Machine/Header.lean ====
section
/-! DEFINITION. The header builder and parser (41_header.md R120 to R124). -/

namespace Sys2Proof.Machine

/-- `HdrPack(L, C)`, the channel values of the header pixel (41_header.md R121): for C = 4 the most
significant byte goes to channel 3 (90_conflicts.md C2). -/
def hdrPack (l c : Nat) : List Byte :=
  if c = 4 then [natByte l 2, natByte l 1, natByte l 0, natByte l 3]
  else [natByte l 2, natByte l 1, natByte l 0]

/-- `HdrParse(cs, C)`, the frame length the header pixel holds (41_header.md R122); for C = 3 channel 3
is not read. -/
def hdrParse (p : Pixel) (c : Nat) : Nat :=
  let low := p.c0.toNat * 2 ^ 16 + p.c1.toNat * 2 ^ 8 + p.c2.toNat
  if c = 4 then p.c3.toNat * 2 ^ 24 + low else low

/-- `HdrValid(L)`: L ≠ 0, L ≤ DCAP and L ≥ F (41_header.md R124). -/
abbrev HdrValid (l dcap f : Nat) : Prop := l ≠ 0 ∧ l ≤ dcap ∧ f ≤ l

end Sys2Proof.Machine
end

