-- ==== Sys2Proof/Machine/Flags.lean ====
section
/-! DEFINITION. The STATUS word, the error codes and the interrupt line (10_state.md R23, 60_exceptions.md
R201, R207). -/

namespace Sys2Proof.Machine

/-- The error codes of 60_exceptions.md R201. -/
def ErrorKind.code (e : ErrorKind) : BitVec 4 :=
  match e with
  | .capacityExceeded => 1
  | .invalidIdentifier => 2
  | .corruptHeader => 3
  | .truncatedImage => 4
  | .unsupportedGeneration => 5
  | .illegalCommand => 6
  | .illegalConfig => 7
  | .emptyFrame => 8
  | .bufferOverflow => 9

/-- STATUS.BUSY: the engine's phase (10_state.md R43). -/
def State.busy (s : State) : Bool := s.eng.phase == .busy

/-- STATUS.ERRCODE, bits 11:8: 0 on success (60_exceptions.md R201). -/
def State.errCode (s : State) : BitVec 4 :=
  match s.status.error with
  | none => 0
  | some e => e.code

/-- STATUS.ERR, bit 2: "always equals (ERRCODE ≠ 0)" (10_state.md R23). -/
def State.errFlag (s : State) : Bool := s.errCode != 0

/-- The STATUS word (10_state.md R23): ID_SENT 12, ERRCODE 11:8, WIGN 3, ERR 2, DONE 1, BUSY 0. -/
def State.statusWord (s : State) : Word :=
  0#19 ++ BitVec.ofBool s.status.idSent ++ s.errCode ++ 0#4 ++ BitVec.ofBool s.status.wign
    ++ BitVec.ofBool s.errFlag ++ BitVec.ofBool s.status.done ++ BitVec.ofBool s.busy

/-- The interrupt output: `irq = reg[STATUS].DONE and reg[CTRL].IE` (60_exceptions.md R207). -/
def State.irq (s : State) : Bool := s.status.done && s.intEn

end Sys2Proof.Machine
end

