-- ==== Sys2Proof/Machine/Ops.lean ====
section
/-! DEFINITION. The operations every command and bus access is made of: acceptance, completion and raise
(44_commands.md R170, R171, 60_exceptions.md R200), and the registers at their bus offsets (10_state.md R21). -/

namespace Sys2Proof.Machine

/-! ## The life of a command -/

/-- Acceptance of the command word v (44_commands.md R170): DONE and ERRCODE become 0, BUSY becomes 1, the
engine holds v. WIGN and ID_SENT stay. -/
def State.accept (v : Word) (s : State) : State :=
  { s with
    status := { s.status with done := false, error := none }
    eng := { s.eng with phase := .busy, op := v }
    waited := 0 }

/-- Completion with the outcome e, `none` on success (44_commands.md R171). -/
def State.complete (e : Option ErrorKind) (s : State) : State :=
  { s with
    status := { s.status with error := e, done := true }
    eng := { s.eng with phase := .idle } }

/-- `raise e` (60_exceptions.md R200), the one way an error is taken: the command ends with ERRCODE =
code(e) and only STATUS changes (R204). There is no trap, and no return from one (R206, R210). -/
def State.raise (e : ErrorKind) (s : State) : State := s.complete (some e)

/-- A command given by its checks and its effect: the first check that fails is raised and nothing else
changes, otherwise the effect takes place and the command completes (20_memory.md R74, 60_exceptions.md
R203, R204). -/
def State.perform (check : Option ErrorKind) (effect : State → State) (s : State) : State :=
  match check with
  | some e => s.raise e
  | none => (effect s).complete none

/-! ## STATUS as the host writes it -/

/-- A host write of v to STATUS while BUSY = 0: writing 1 to DONE (bit 1) or WIGN (bit 3) clears it, the
other fields are read-only (10_state.md R23, 20_memory.md R71). -/
def State.clearStatus (v : Word) (s : State) : State :=
  { s with status := { s.status with
      done := s.status.done && !v.getLsbD 1
      wign := s.status.wign && !v.getLsbD 3 } }

/-- A host write that the BUSY rule ignores sets WIGN (20_memory.md R76). -/
def State.setWign (s : State) : State := { s with status := { s.status with wign := true } }

/-! ## The register file at its bus offsets (10_state.md R21) -/

/-- The value of the register at a 4-aligned offset while BUSY = 0. CMD reads 0 (R24), and so do the
reserved offsets and the reserved bits (R39). -/
def State.readReg (s : State) (off : Nat) : Word :=
  match off with
  | 0x000 => s.regs.ctrl.setWidth 32
  | 0x004 => s.statusWord
  | 0x00C => s.regs.imgW.setWidth 32
  | 0x010 => s.regs.imgH.setWidth 32
  | 0x014 => s.regs.imgCh.setWidth 32
  | 0x018 => s.regs.imgAvail
  | 0x01C => s.regs.fillColor
  | 0x020 => s.regs.plen
  | 0x024 => s.regs.frameLen
  | 0x028 => s.regs.padLen
  | 0x02C => s.regs.capEnc
  | 0x030 => s.regs.capDec
  | 0x034 => s.regs.arg
  | 0x038 => s.regs.res
  | 0x040 => s.regs.id0
  | 0x044 => s.regs.id1
  | 0x048 => s.regs.id2
  | 0x04C => s.regs.id3
  | 0x050 => s.regs.vb
  | _ => 0

/-- The registers a host write changes by itself: the implemented bits of the read-write ones. Read-only
registers and reserved offsets ignore the write (10_state.md R21, R39). -/
def Regs.write (r : Regs) (off : Nat) (v : Word) : Regs :=
  match off with
  | 0x000 => { r with ctrl := v.setWidth 7 }
  | 0x00C => { r with imgW := v.setWidth 16 }
  | 0x010 => { r with imgH := v.setWidth 16 }
  | 0x014 => { r with imgCh := v.setWidth 3 }
  | 0x018 => { r with imgAvail := v }
  | 0x01C => { r with fillColor := v }
  | 0x020 => { r with plen := v }
  | 0x034 => { r with arg := v }
  | 0x040 => { r with id0 := v }
  | 0x044 => { r with id1 := v }
  | 0x048 => { r with id2 := v }
  | 0x04C => { r with id3 := v }
  | 0x050 => { r with vb := v }
  | _ => r

/-- A host write of v to the register at a 4-aligned offset while BUSY = 0: STATUS is write-1-to-clear
(R23), CMD starts a command (R24), the others are as `Regs.write`. -/
def State.writeReg (s : State) (off : Nat) (v : Word) : State :=
  match off with
  | 0x004 => s.clearStatus v
  | 0x008 => s.accept v
  | _ => { s with regs := s.regs.write off v }

end Sys2Proof.Machine
end

