-- ==== Sys2Proof/Machine/Packer.lean ====
section
/-! DEFINITION. Padding, byte mode and bit mode (42_packer.md R130 to R141). Packing gives the channel
lists of the pixels at logical indices 1, 2, 3, …; unpacking reads them back. -/

namespace Sys2Proof.Machine

/-! ## Padding (42_packer.md R130) -/

/-- `PadLen(L, C)`, 0 to C−1. -/
def padLen (l c : Nat) : Nat := c * ceilDiv l c - l

/-- P, the length of the padded frame, a multiple of C. -/
def paddedLen (l c : Nat) : Nat := l + padLen l c

/-- `Padded(fr)`. -/
def padded (c : Nat) (fr : List Byte) : List Byte :=
  fr ++ List.replicate (padLen fr.length c) padByte

/-! ## Byte mode (42_packer.md R132 to R134) -/

/-- `ByteModePack(pf)`: byte g·C + k goes to channel k of data pixel g. -/
def byteModePack (c : Nat) (pf : List Byte) : List (List Byte) :=
  (List.range (pf.length / c)).map fun g =>
    (List.range c).map fun k => pf.getD (g * c + k) 0

/-- `ByteModeUnpack(L)`: frame byte j is channel (j mod C) of the pixel at logical index 1 + (j div C). -/
def byteModeUnpack (c w : Nat) (m : Memory) (l : Nat) : List Byte :=
  (List.range l).map fun j => (pixReadAt w m (1 + j / c)).chan (j % c)

/-! ## Bit mode (42_packer.md R135 to R140) -/

/-- The channel value of bit k of b: ON if it is 1, else OFF (42_packer.md R135). -/
def bitState (b : Byte) (k : Nat) : Byte := if b.getLsbD k then onByte else offByte

/-- `BitSplit(b)`, the three pixels that carry byte b (42_packer.md R135). -/
def bitSplit (b : Byte) : List (List Byte) :=
  [[bitState b 0, bitState b 1, bitState b 2],
   [bitState b 3, bitState b 4, bitState b 5],
   [bitState b 6, bitState b 7, bitSentinel]]

/-- The bit-mode threshold: a channel is the bit 1 iff it is 255 (42_packer.md R138). -/
def bitOf (v : Byte) : Nat := if v = onByte then 1 else 0

/-- `BitMerge(q0, q1, q2)`; channel 2 of q2 and every channel 3 are not read (42_packer.md R139). -/
def bitMerge (q0 q1 q2 : Pixel) : Byte :=
  BitVec.ofNat 8 (bitOf q0.c0 * 2 ^ 0 + bitOf q0.c1 * 2 ^ 1 + bitOf q0.c2 * 2 ^ 2
    + bitOf q1.c0 * 2 ^ 3 + bitOf q1.c1 * 2 ^ 4 + bitOf q1.c2 * 2 ^ 5
    + bitOf q2.c0 * 2 ^ 6 + bitOf q2.c1 * 2 ^ 7)

/-- `BitModePack(pf)`: byte j occupies the three pixels at logical indices 1 + 3j to 3 + 3j (42_packer.md
R136, R137). -/
def bitModePack (pf : List Byte) : List (List Byte) :=
  match pf with
  | [] => []
  | b :: rest => bitSplit b ++ bitModePack rest

/-- `BitModeUnpack(L)` (42_packer.md R140). -/
def bitModeUnpack (w : Nat) (m : Memory) (l : Nat) : List Byte :=
  (List.range l).map fun j =>
    bitMerge (pixReadAt w m (1 + 3 * j)) (pixReadAt w m (2 + 3 * j)) (pixReadAt w m (3 + 3 * j))

/-! ## Strategy selection (42_packer.md R141) -/

/-- `Pack(pf)`, as the channel lists of the pixels at logical indices 1 to NPIX(P). -/
def Codec.pack (k : Codec) (pf : List Byte) : List (List Byte) :=
  if k.bit then bitModePack pf else byteModePack k.ch pf

/-- `Unpack(L)`, the L frame bytes an image of width w holds. -/
def Codec.unpack (k : Codec) (w : Nat) (m : Memory) (l : Nat) : List Byte :=
  if k.bit then bitModeUnpack w m l else byteModeUnpack k.ch w m l

end Sys2Proof.Machine
end

