-- ==== Sys2Proof/Machine/Codec.lean ====
section
/-! DEFINITION. ENCODE and DECODE (44_commands.md R172, R173). -/

namespace Sys2Proof.Machine

/-! ## ENCODE (44_commands.md R172) -/

/-- The first check of ENCODE that fails, in its pseudocode's order (60_exceptions.md R203). -/
def encodeCheck (s : State) : Option ErrorKind :=
  if ¬(s.ImgOK ∧ s.codec.OK) ∨ s.par.payDepth < s.payloadLen then some .illegalConfig
  else if s.imgChannels ≠ s.codec.ch then some .unsupportedGeneration
  else if s.frameLength = 0 then some .emptyFrame
  else if s.codec.hmax < s.frameLength then some .capacityExceeded
  else if s.numPixels < 1 + s.codec.npix (paddedLen s.frameLength s.codec.ch) then
    some .capacityExceeded
  else none

/-- The pixels ENCODE writes, from logical index 0: the header, then the packed padded frame. -/
def encodePixels (s : State) : List (List Byte) :=
  hdrPack s.frameLength s.codec.ch :: s.codec.pack (padded s.codec.ch s.frameBytes)

/-- What ENCODE writes once its checks have passed: the pixels at logical indices 0 to NPIX(P), FRAME_LEN,
PAD_LEN and IMG_AVAIL; the counters end at the last pixel and byte moved (log 6). -/
def encodeEffect (s : State) : State :=
  let l := s.frameLength
  let p := paddedLen l s.codec.ch
  { s with
    pix := putPixels s.width s.pix 0 (encodePixels s)
    regs := { s.regs with
      frameLen := BitVec.ofNat 32 l
      padLen := BitVec.ofNat 32 (p - l)
      imgAvail := BitVec.ofNat 32 s.numPixels }
    eng := { s.eng with scan := s.codec.npix p, byteIdx := p - 1 } }

/-- ENCODE (44_commands.md R172). -/
def execEncode (s : State) : Host.Outcome State Fault Refusal :=
  .next (s.perform (encodeCheck s) encodeEffect)

/-! ## DECODE (44_commands.md R173) -/

/-- The frame length DECODE reads from the header pixel, at logical index 0 (41_header.md R122). -/
def decodeLength (s : State) : Nat := hdrParse (pixReadAt s.width s.pix 0) s.codec.ch

/-- The first check of DECODE that fails, in its pseudocode's order (60_exceptions.md R203). -/
def decodeCheck (s : State) : Option ErrorKind :=
  if ¬(s.ImgOK ∧ s.codec.OK) ∨ s.numPixels < s.regs.imgAvail.toNat then some .illegalConfig
  else if s.imgChannels ≠ s.codec.ch then some .unsupportedGeneration
  else if s.regs.imgAvail.toNat = 0 then some .truncatedImage
  else if ¬HdrValid (decodeLength s) (s.codec.dcap s.numPixels) s.fixedPart then
    some .corruptHeader
  else if s.par.payDepth < decodeLength s - s.fixedPart then some .bufferOverflow
  else if s.regs.imgAvail.toNat < 1 + s.codec.nread (decodeLength s) then some .truncatedImage
  else none

/-- The L bytes of the frame DECODE unpacks (42_packer.md R141). -/
def decodeFrame (s : State) : List Byte := s.codec.unpack s.width s.pix (decodeLength s)

/-- What DECODE writes once its checks have passed: the payload, the identifier bank and VB (STRUCTURED
only), PLEN, FRAME_LEN, PAD_LEN and ID_SENT; never PIXMEM. -/
def decodeEffect (s : State) : State :=
  let l := decodeLength s
  let fr := decodeFrame s
  let blocks := if s.structured then s.regs.takeBlocks fr else s.regs
  { s with
    pay := Memory.writeBytes s.pay 0 (fr.drop s.fixedPart)
    regs := { blocks with
      plen := BitVec.ofNat 32 (l - s.fixedPart)
      frameLen := BitVec.ofNat 32 l
      padLen := BitVec.ofNat 32 (padLen l s.codec.ch) }
    status := { s.status with idSent := idSentOf s.structured fr }
    eng := { s.eng with scan := s.codec.nread l, byteIdx := l - 1 } }

/-- DECODE (44_commands.md R173). -/
def execDecode (s : State) : Host.Outcome State Fault Refusal :=
  .next (s.perform (decodeCheck s) decodeEffect)

end Sys2Proof.Machine
end

