-- ==== Sys2Proof/Machine/Control.lean ====
section
/-! DEFINITION. FILL, SRESET and illegal commands (44_commands.md R174 to R176). -/

namespace Sys2Proof.Machine

/-! ## FILL (44_commands.md R174) -/

/-- The check of FILL. -/
def fillCheck (s : State) : Option ErrorKind := if s.ImgOK then none else some .illegalConfig

/-- What FILL writes: channels 0 to CI−1 of FILL_COLOR into every pixel of the image, and IMG_AVAIL. -/
def fillEffect (s : State) : State :=
  { s with
    pix := putPixels s.width s.pix 0
      (List.replicate s.numPixels (bytesLE s.imgChannels s.regs.fillColor))
    regs := { s.regs with imgAvail := BitVec.ofNat 32 s.numPixels }
    eng := { s.eng with scan := s.numPixels - 1 } }

/-- FILL (44_commands.md R174). -/
def execFill (s : State) : Host.Outcome State Fault Refusal :=
  .next (s.perform (fillCheck s) fillEffect)

/-! ## SRESET (44_commands.md R175) -/

/-- Every register of 10_state.md R21 at its reset value and the engine IDLE; the memories stay. -/
def State.resetRegisters (s : State) : State :=
  { s with regs := Regs.reset, status := Status.reset, eng := { s.eng with phase := .idle } }

/-- SRESET (44_commands.md R175): DONE is not set, and STATUS reads 0 after it. -/
def execSreset (s : State) : Host.Outcome State Fault Refusal := .next s.resetRegisters

/-! ## Illegal command (44_commands.md R176) -/

/-- A command word that is not in the opcode map completes with IllegalCommand. -/
def illegalCommand (s : State) : State := s.raise .illegalCommand

end Sys2Proof.Machine
end

