-- ==== Sys2Proof/Machine/Query.lean ====
section
/-! DEFINITION. ADDR, INDEX and CAPACITY (40_scan_order.md R114 to R116). -/

namespace Sys2Proof.Machine

/-- Write RES (10_state.md R36). -/
def State.setRes (v : Nat) (s : State) : State :=
  { s with regs := { s.regs with res := BitVec.ofNat 32 v } }

/-- The checks of ADDR. -/
def addrCheck (s : State) : Option ErrorKind :=
  if ¬s.DimOK then some .illegalConfig
  else if s.numPixels ≤ s.argIndex then some .capacityExceeded
  else none

/-- ADDR (40_scan_order.md R114): RES = y·65536 + x. -/
def execAddr (s : State) : Host.Outcome State Fault Refusal :=
  let p := address s.width s.argIndex
  .next (s.perform (addrCheck s) (State.setRes (p.2 * 65536 + p.1)))

/-- The checks of INDEX. -/
def indexCheck (s : State) : Option ErrorKind :=
  if ¬s.DimOK then some .illegalConfig
  else if s.width ≤ s.argX ∨ s.height ≤ s.argY then some .capacityExceeded
  else none

/-- INDEX (40_scan_order.md R115): RES = index(x, y). -/
def execIndex (s : State) : Host.Outcome State Fault Refusal :=
  .next (s.perform (indexCheck s) (State.setRes (indexOf s.width s.argX s.argY)))

/-- The check of CAPACITY; IMG_CH is not read. -/
def capacityCheck (s : State) : Option ErrorKind :=
  if ¬s.DimOK ∨ ¬s.codec.OK then some .illegalConfig else none

/-- What CAPACITY writes: CAP_ENC and CAP_DEC. -/
def capacityEffect (s : State) : State :=
  { s with regs := { s.regs with
      capEnc := BitVec.ofNat 32 (s.codec.ecap s.numPixels)
      capDec := BitVec.ofNat 32 (s.codec.dcap s.numPixels) } }

/-- CAPACITY (40_scan_order.md R116). -/
def execCapacity (s : State) : Host.Outcome State Fault Refusal :=
  .next (s.perform (capacityCheck s) capacityEffect)

end Sys2Proof.Machine
end

