-- ==== Sys2Proof/Machine/Dispatch.lean ====
section
/-! DEFINITION. The meaning of each command: one arm per constructor of Instr (30_encoding.md R91). -/

namespace Sys2Proof.Machine

-- What the engine does with a command from its acceptance to its completion (44_commands.md R171).
def exec (i : Instr) (s : State) : Host.Outcome State Fault Refusal :=
  match i with
  | .encode => Sys2Proof.Machine.execEncode s
  | .decode => Sys2Proof.Machine.execDecode s
  | .fill => Sys2Proof.Machine.execFill s
  | .addr => Sys2Proof.Machine.execAddr s
  | .index => Sys2Proof.Machine.execIndex s
  | .capacity => Sys2Proof.Machine.execCapacity s
  | .sreset => Sys2Proof.Machine.execSreset s

end Sys2Proof.Machine
end

