-- ==== Sys2Proof/WellFormed.lean ====
section
/-! DEFINITION. Well-formedness: of a command word (30_encoding.md R90, R94) and of a command. -/

namespace Sys2Proof

/-- Bits 31:8 of a command word, MBZ, are zero (30_encoding.md R90). -/
def mbzIsZero (w : Word) : Bool := w >>> 8 == 0#32

/-- Bits 7:0 of a command word, OP, are one of the assigned opcodes 0x01 to 0x07 (30_encoding.md
R91); 0x00 and 0x08 to 0xFF are illegal (R94). -/
def opIsAssigned (w : Word) : Bool := 1 ≤ w.toNat % 256 && w.toNat % 256 ≤ 7

/-- A command word that selects a command (30_encoding.md R91, R94). -/
def commandWordWf (w : Word) : Bool := mbzIsZero w && opIsAssigned w

/-- Every command is well formed: it has no operand field that could be out of range (30_encoding.md
R90). Its operands are registers, whose legality the command itself checks (10_state.md R41). -/
def Instr.wf (i : Instr) : Bool :=
  match i with
  | .encode => true
  | .decode => true
  | .fill => true
  | .addr => true
  | .index => true
  | .capacity => true
  | .sreset => true

end Sys2Proof
end

