-- ==== Sys2Proof/Decode.lean ====
section
/-! DEFINITION. The command decoder, total on every 32-bit word, rejecting by name, and the encoder
(30_encoding.md R90, R91, R94). -/

namespace Sys2Proof

/-- Why a command word is illegal (30_encoding.md R94). -/
inductive DecodeReject where
  /-- Bits 31:8 are not all zero. -/
  | mbzNotZero
  /-- OP is 0x00 or 0x08 to 0xFF. -/
  | opNotAssigned
deriving DecidableEq, Repr

/-- OP, bits 7:0 of a command word (30_encoding.md R90). -/
def opField (w : Word) : Byte := w.extractLsb' 0 8

/-- MBZ, bits 31:8 of a command word (30_encoding.md R90). -/
def mbzField (w : Word) : BitVec 24 := w.extractLsb' 8 24

/-- The opcode map of 30_encoding.md R91. -/
def ofOpcode (op : Nat) : Except DecodeReject Instr :=
  match op with
  | 0x01 => .ok .encode
  | 0x02 => .ok .decode
  | 0x03 => .ok .fill
  | 0x04 => .ok .addr
  | 0x05 => .ok .index
  | 0x06 => .ok .capacity
  | 0x07 => .ok .sreset
  | _ => .error .opNotAssigned

/-- The command a word selects (30_encoding.md R91), or why it is illegal (R94). -/
def decode (w : Word) : Except DecodeReject Instr :=
  if mbzField w = 0#24 then ofOpcode (opField w).toNat else .error .mbzNotZero

/-- The command word of a command (30_encoding.md R91). -/
def encode (i : Instr) : Word :=
  match i with
  | .encode => 0x00000001#32
  | .decode => 0x00000002#32
  | .fill => 0x00000003#32
  | .addr => 0x00000004#32
  | .index => 0x00000005#32
  | .capacity => 0x00000006#32
  | .sreset => 0x00000007#32

/-- The command word whose `nbits` bits are `w`, the bits above them 0 (every command is 32 bits long,
30_encoding.md R96). -/
def tableWord (nbits w : Nat) : Word := BitVec.ofNat 32 (w % 2 ^ nbits)

/-- The command the decoder reads from the word whose `nbits` bits are `w`; `none` where it is illegal
or does not fit in the 32 bits every command has. -/
def decodeTableWord (nbits w : Nat) : Option Instr :=
  if w % 2 ^ nbits < 2 ^ 32 then
    match decode (tableWord nbits w) with
    | .ok i => some i
    | .error _ => none
  else none

end Sys2Proof
end

