-- ==== Sys2Proof/Machine/Bus.lean ====
section
/-! DEFINITION. The bus slave port: address map, legal sizes and alignment, reads and writes, and the BUSY
rule (20_memory.md R61, R67, R69 to R72, R76). -/

namespace Sys2Proof.Machine

/-- The access sizes of the bus (10_state.md R20, 20_memory.md R67). -/
inductive Size where
  /-- 1 byte. -/
  | byte
  /-- 2 bytes. -/
  | half
  /-- 4 bytes. -/
  | word
deriving DecidableEq, Repr

/-- The number of bytes of an access. -/
def Size.bytes (z : Size) : Nat :=
  match z with
  | .byte => 1
  | .half => 2
  | .word => 4

/-- What a bus address selects (20_memory.md R61). -/
inductive Target where
  /-- The register file, at an offset. -/
  | reg (off : Nat)
  /-- The PAYMEM window, at byte k. -/
  | pay (k : Nat)
  /-- The PIXMEM window, at byte b = 4j + channel. -/
  | pix (b : Nat)
  /-- No target: the access gets an ERROR response. -/
  | unmapped
deriving DecidableEq, Repr

/-- The bus address map of 20_memory.md R61. An access to a window is valid when every byte it moves lies
within the memory's depth (log 8). -/
def busTarget (par : Config.Params) (z : Size) (a : BusAddr) : Target :=
  let n := a.toNat
  if n < 0x100 then .reg n
  else if 0x100000 ≤ n ∧ n < 0x200000 then
    if n - 0x100000 + z.bytes ≤ par.payDepth then .pay (n - 0x100000) else .unmapped
  else if 0x800000 ≤ n then
    if n - 0x800000 + z.bytes ≤ 4 * par.pixDepth then .pix (n - 0x800000) else .unmapped
  else .unmapped

/-- The size and alignment rules of 20_memory.md R69: the register file takes 4-byte accesses only, and
every address is a multiple of the size. -/
def legalAccess (t : Target) (z : Size) (a : BusAddr) : Bool :=
  a.toNat % z.bytes == 0 &&
    match t with
    | .reg _ => z == .word
    | .pay _ => true
    | .pix _ => true
    | .unmapped => false

/-- The target of an access that gets an OKAY response; `none` where the response is ERROR (20_memory.md
R70, first line). -/
def okTarget (par : Config.Params) (z : Size) (a : BusAddr) : Option Target :=
  let t := busTarget par z a
  if legalAccess t z a then some t else none

/-- The data of a read while BUSY = 0: a register, or the bytes of a memory, the lowest address in bits
7:0 (20_memory.md R67, R70). -/
def readTarget (z : Size) (s : State) (t : Target) : Word :=
  match t with
  | .reg off => s.readReg off
  | .pay k => wordLE (Memory.readBytes .pay s.pay k z.bytes)
  | .pix b => wordLE (Memory.readBytes .pix s.pix b z.bytes)
  | .unmapped => 0

/-- The effect of a write while BUSY = 0 (20_memory.md R67, R70, R71). -/
def writeTarget (z : Size) (v : Word) (s : State) (t : Target) : State :=
  match t with
  | .reg off => s.writeReg off v
  | .pay k => { s with pay := Memory.writeBytes s.pay k (bytesLE z.bytes v) }
  | .pix b => { s with pix := Memory.writeBytes s.pix b (bytesLE z.bytes v) }
  | .unmapped => s

/-- Whether a target is the STATUS register, the one location that reads its value while BUSY (20_memory.md
R76). -/
def isStatus (t : Target) : Bool := t == .reg 0x004

/-- `MemRead(a, n)` (20_memory.md R70): the response and the state after it. While BUSY every read but
STATUS gives a fresh free value (R76; logs 7, 10). -/
def busRead (z : Size) (a : BusAddr) (s : State) : Reply × State :=
  match okTarget s.par z a with
  | none => (.error, s)
  | some t =>
    if s.busy && !isStatus t then
      (.okayRead (Config.freeWord s.draws), { s with draws := s.draws + 1 })
    else (.okayRead (readTarget z s t), s)

/-- `MemWrite(a, n, v)` (20_memory.md R70): the response and the state after it. While BUSY the write is
ignored and sets WIGN (R76). -/
def busWrite (z : Size) (a : BusAddr) (v : Word) (s : State) : Reply × State :=
  match okTarget s.par z a with
  | none => (.error, s)
  | some t => if s.busy then (.okayWrite, s.setWign) else (.okayWrite, writeTarget z v s t)

/-- The data word of a response: an ERROR response returns 0 (20_memory.md R72). -/
def Reply.data (r : Reply) : Word :=
  match r with
  | .okayRead d => d
  | .okayWrite => 0
  | .error => 0

end Sys2Proof.Machine
end

