-- ==== Sys2Proof/Machine/HostProgram.lean ====
section
/-! DEFINITION. The host: its instructions and pseudo-instructions (30_encoding.md R98, R99), one bus access
a turn, in program order (20_memory.md R75). -/

namespace Sys2Proof.Machine

/-! ## Register names as bus addresses (30_encoding.md R98) -/

/-- The bus address of STATUS. -/
def statusAddr : BusAddr := 0x000004

/-- The bus address of CMD. -/
def cmdAddr : BusAddr := 0x000008

/-! ## Pseudo-instructions (30_encoding.md R99) -/

/-- `RUN op`: `SW CMD, <command word of op>`. -/
def runOp (i : Instr) : List HostOp := [.sw cmdAddr (encode i)]

/-- `EXEC op`: `RUN op` then `WAIT`. -/
def execOp (r : Nat) (i : Instr) : List HostOp := runOp i ++ [.wait r]

/-- `CHECK e`: `LW s, STATUS`; the assertion is `checkHolds`, a claim and not an effect. -/
def checkOp (r : Nat) : List HostOp := [.lw r statusAddr]

/-- What `CHECK e` asserts of the word it read: bits 11:8 are e. -/
def checkHolds (e : BitVec 4) (w : Word) : Bool := w.extractLsb' 8 4 == e

/-- `ACK`: `SW STATUS, 0x0000000A`, which clears DONE and WIGN. -/
def ackOp : List HostOp := [.sw statusAddr 0x0000000A]

/-! ## One host turn -/

/-- The value a name holds; 0 for a name nothing has been loaded into. -/
def HostSide.value (h : HostSide) (r : Nat) : Word :=
  match h.vars.find? (fun p => p.1 == r) with
  | some p => p.2
  | none => 0

/-- Load a value into a name. -/
def HostSide.setVar (h : HostSide) (r : Nat) (v : Word) : HostSide :=
  { h with vars := (r, v) :: h.vars.filter (fun p => p.1 != r) }

/-- A host store: the access and its response on the port. -/
def hostStore (z : Size) (a : BusAddr) (v : Word) (s : State) : State :=
  let p := busWrite z a v s
  { p.2 with host := { p.2.host with reply := some p.1 } }

/-- The low n bytes of a data word, zero-extended: what LH and LB load (30_encoding.md R98). -/
def zeroExtend (z : Size) (d : Word) : Word :=
  match z with
  | .byte => (d.setWidth 8).setWidth 32
  | .half => (d.setWidth 16).setWidth 32
  | .word => d

/-- A host load into the name r: the access, its response on the port, and the zero-extended data. -/
def hostLoad (z : Size) (r : Nat) (a : BusAddr) (s : State) : State :=
  let p := busRead z a s
  { p.2 with host :=
      ({ p.2.host with reply := some p.1 } : HostSide).setVar r (zeroExtend z p.1.data) }

/-- One host instruction, `rest` being the program after it (30_encoding.md R98, R99). WAIT stays at the
head of the program while the STATUS it read has bit 0 set. -/
def hostOp (op : HostOp) (rest : List HostOp) (s : State) : State :=
  let s1 := { s with host := { s.host with prog := rest } }
  match op with
  | .sw a v => hostStore .word a v s1
  | .sh a v => hostStore .half a (v.setWidth 32) s1
  | .sb a v => hostStore .byte a (v.setWidth 32) s1
  | .lw r a => hostLoad .word r a s1
  | .lh r a => hostLoad .half r a s1
  | .lb r a => hostLoad .byte r a s1
  | .wait r =>
    let s2 := hostLoad .word r statusAddr s1
    if (s2.host.value r).getLsbD 0 then
      { s2 with host := { s2.host with prog := .wait r :: rest } }
    else s2

/-- The host's turn: its next instruction, if it has one. A turn taken while BUSY counts towards LAT_MAX
(log 5). -/
def hostTurn (s : State) : State :=
  let s1 := if s.busy then { s with waited := s.waited + 1 } else s
  match s.host.prog with
  | [] => s1
  | op :: rest => hostOp op rest s1

end Sys2Proof.Machine
end

