-- ==== Sys2Proof/Machine/Reset.lean ====
section
/-! DEFINITION. Hardware reset, `rst` (70_reset_and_hazards.md R231, R233, R234). -/

namespace Sys2Proof.Machine

/-- What an abandoned command could have written (70_reset_and_hazards.md R234). -/
inductive WriteSet where
  /-- Nothing. -/
  | nothing
  /-- The pixels of logical indices 0 to n−1, channels 0 to CI−1 of each (20_memory.md R65). -/
  | pixels (n : Nat)
  /-- PAY[0 .. n−1]. -/
  | payload (n : Nat)
deriving DecidableEq, Repr

/-- The locations the command the engine holds could have written (70_reset_and_hazards.md R234). A command
one of whose checks fails writes nothing (60_exceptions.md R204), so it could have written nothing (log 9). -/
def writeSet (s : State) : WriteSet :=
  match decode s.eng.op with
  | .ok .encode =>
    if encodeCheck s = none then
      .pixels (1 + s.codec.npix (paddedLen s.frameLength s.codec.ch))
    else .nothing
  | .ok .fill => if fillCheck s = none then .pixels s.numPixels else .nothing
  | .ok .decode =>
    if decodeCheck s = none then .payload (decodeLength s - s.fixedPart) else .nothing
  | _ => .nothing

/-- The n fresh draws from number d on, one for each pixel, in its channels 0 to c−1 (20_memory.md R65, log
9). -/
def freshPixels (c d n : Nat) : List (List Byte) :=
  (List.range n).map fun k => bytesLE c (Config.freeWord (d + k))

/-- The n fresh draws from number d on, one byte each. -/
def freshBytes (d n : Nat) : List Byte :=
  (List.range n).map fun k => byteOf (Config.freeWord (d + k)) 0

/-- The memories after a command was abandoned: fresh draws where it could have written, the rest kept
(70_reset_and_hazards.md R234). Channel 3 of a 3-channel image is among the rest (20_memory.md R65). -/
def State.abandon (s : State) : State :=
  match writeSet s with
  | .nothing => s
  | .pixels n =>
    { s with
      pix := putPixels s.width s.pix 0 (freshPixels s.imgChannels s.draws n)
      draws := s.draws + n }
  | .payload n =>
    { s with pay := Memory.writeBytes s.pay 0 (freshBytes s.draws n), draws := s.draws + n }

/-- `rst` (70_reset_and_hazards.md R231): every register at its reset value, the engine IDLE, a running
command abandoned without completing. The memories are kept if the engine was IDLE (R233). -/
def hardReset (s : State) : State :=
  let s1 := if s.busy then s.abandon else s
  { s1 with regs := Regs.reset, status := Status.reset, eng := Engine.reset, waited := 0 }

end Sys2Proof.Machine
end

