-- ==== Sys2Proof/Machine/Engine.lean ====
section
/-! DEFINITION. The engine's turn, and who takes the next turn (10_state.md R20, 44_commands.md R171,
60_exceptions.md R209, 70_reset_and_hazards.md R246). -/

namespace Sys2Proof.Machine

/-- The command word the engine holds (10_state.md R43): what stands where another machine fetches. -/
def fetchWord (s : State) : Word := s.eng.op

/-- The engine's turn (44_commands.md R171): while BUSY it performs and completes the command it holds, an
illegal word by R176 (log 13); while IDLE it holds its state (60_exceptions.md R217). -/
def engineTurn (s : State) : Host.Outcome State Fault Refusal :=
  if s.busy then
    match decode (fetchWord s) with
    | .ok i => exec i s
    | .error _ => .next (illegalCommand s)
  else .next s

/-- The command has been BUSY for LAT_MAX host turns and completes now (log 5). -/
def overdue (s : State) : Bool :=
  s.busy &&
    match s.par.latMax with
    | none => false
    | some n => decide (n ≤ s.waited)

/-- Who takes the next turn: the schedule's next entry, except that an overdue command completes unless
`rst` comes first; with nothing scheduled a BUSY engine goes first (the weak fairness of
70_reset_and_hazards.md R246), then the host (log 4). -/
def nextTurn (s : State) : Turn :=
  match s.sched with
  | [] => if s.busy then .engine else .host
  | .rst :: _ => .rst
  | .engine :: _ => .engine
  | .host :: _ => if overdue s then .engine else .host

/-- The state with its next scheduled turn used up. -/
def spendTurn (s : State) : State := { s with sched := s.sched.tail }

/-- One turn of whoever's it is. -/
def takeTurn (s : State) : Host.Outcome State Fault Refusal :=
  match nextTurn s with
  | .engine => engineTurn (spendTurn s)
  | .host => .next (hostTurn (spendTurn s))
  | .rst => .next (hardReset (spendTurn s))

/-- The state in which the engine has accepted the command word v and has the next turn: what a host write
of v to CMD while BUSY = 0 does (44_commands.md R170), with nothing scheduled before the completion. -/
def placeCommand (s : State) (v : Word) : State := { s.accept v with sched := [] }

end Sys2Proof.Machine
end

