-- ==== Sys2Proof/Machine/Step.lean ====
section
/-! DEFINITION. One step of the machine: one turn of the host, the engine or `rst`. -/

namespace Sys2Proof.Machine

/-- One step: a bus access of the host, the completion of the engine's command, or `rst`. -/
def step (s : State) : Host.Outcome State Fault Refusal := takeTurn s

/-- s with the command whose `nbits` bits are `w` accepted by the engine, so that the next step performs
and completes exactly it (log 12). -/
def State.withFetchWord (s : State) (nbits w : Nat) : State := placeCommand s (tableWord nbits w)

end Sys2Proof.Machine
end

