-- ==== Sys2Proof/Safety.lean ====
section
/-! DEFINITION. The terms the statements use: single bytes of the memories, a channel of the image by
logical index, and the invariant that every step keeps. -/

namespace Sys2Proof.Machine

/-- The byte PIXMEM reads at offset b = 4j + k (20_memory.md R67). -/
def State.pixByte (s : State) (b : Nat) : Byte := Memory.read .pix s.pix b

/-- The byte PAYMEM reads at index k (20_memory.md R66). -/
def State.payByte (s : State) (k : Nat) : Byte := Memory.read .pay s.pay k

/-- The offset in PIXMEM of channel 0 of the pixel at logical index i of the image (20_memory.md R64,
40_scan_order.md R110): the address every pixel read and write of a command goes to. -/
def State.pixelOffset (s : State) (i : Nat) : Nat :=
  pixelBase s.width (address s.width i).1 (address s.width i).2

/-- Channel k of the pixel at logical index i of the image. -/
def State.chanAt (s : State) (i k : Nat) : Byte := s.pixByte (s.pixelOffset i + k)

/-- P, the padded length of the frame ENCODE packs (42_packer.md R130). -/
def State.paddedFrameLength (s : State) : Nat := paddedLen s.frameLength s.codec.ch

/-- The conditions under which ENCODE packs its frame (44_commands.md R172): a legal configuration, one
channel count for image and codec, and a frame of 1 to ECAP bytes (40_scan_order.md R113). -/
structure EncodeRuns (s : State) : Prop where
  /-- ImgOK (10_state.md R41). -/
  img : s.ImgOK
  /-- CodecOK (10_state.md R41). -/
  codec : s.codec.OK
  /-- PLEN ≤ PAY_DEPTH (10_state.md R41). -/
  plen : s.payloadLen ≤ s.par.payDepth
  /-- IMG_CH = CTRL.CH (43_frame.md R158). -/
  sameCh : s.imgChannels = s.codec.ch
  /-- The frame is not empty. -/
  nonempty : 1 ≤ s.frameLength
  /-- The frame fits. -/
  fits : s.frameLength ≤ s.codec.ecap s.numPixels

/-- The conditions under which DECODE unpacks a frame (44_commands.md R173), L being the header value. -/
structure DecodeRuns (s : State) : Prop where
  /-- ImgOK (10_state.md R41). -/
  img : s.ImgOK
  /-- CodecOK (10_state.md R41). -/
  codec : s.codec.OK
  /-- IMG_AVAIL ≤ N (10_state.md R41). -/
  avail : s.regs.imgAvail.toNat ≤ s.numPixels
  /-- IMG_CH = CTRL.CH (43_frame.md R158). -/
  sameCh : s.imgChannels = s.codec.ch
  /-- The header value is valid (41_header.md R124). -/
  valid : HdrValid (decodeLength s) (s.codec.dcap s.numPixels) s.fixedPart
  /-- The payload fits in PAYMEM. -/
  payload : decodeLength s - s.fixedPart ≤ s.par.payDepth
  /-- The header and data pixels are present. -/
  present : 1 + s.codec.nread (decodeLength s) ≤ s.regs.imgAvail.toNat

/-- What holds of every state a legal machine reaches. -/
structure Inv (s : State) : Prop where
  /-- The parameters lie in their legal ranges (00_scope.md R6). -/
  legal : s.par.Legal
  /-- PIXMEM is canonical and lists no byte past word PIX_DEPTH−1 (20_memory.md R62). -/
  pixWf : Memory.wf (4 * s.par.pixDepth) s.pix
  /-- PAYMEM is canonical and lists no byte past PAY_DEPTH−1 (20_memory.md R66). -/
  payWf : Memory.wf s.par.payDepth s.pay
  /-- While BUSY, DONE = 0 and ERRCODE = 0 (44_commands.md R170, R171). -/
  busyClean : s.busy = true → s.status.done = false ∧ s.status.error = none
  /-- Code 2, InvalidIdentifier, is never produced (60_exceptions.md R201, 43_frame.md R153). -/
  noInvalidId : s.status.error ≠ some .invalidIdentifier
  /-- A command is never BUSY for more than LAT_MAX host turns (00_scope.md R6; log 5). -/
  withinLatMax : ∀ n, s.par.latMax = some n → s.busy = true → s.waited ≤ n

end Sys2Proof.Machine
end

