-- ==== Sys2Proof/Certificates/Slice0/Obligations.lean ====
section
/-! DEFINITION. The statements about PXP that are to be proved. Each docstring names the rule of spec/ it
formalises. -/

open Sys2Proof Sys2Proof.Machine

/-! ## Command words -/

/-- 30_encoding.md R91: a command word selects an operation exactly when it equals one of the seven
values. -/
def Obligations.DecodeSelectsExactlyTheOpcodeMap : Prop :=
  ∀ (w : Word) (i : Instr), decode w = .ok i ↔
    (w, i) ∈ [(0x00000001#32, Instr.encode), (0x00000002#32, Instr.decode), (0x00000003#32, Instr.fill),
      (0x00000004#32, Instr.addr), (0x00000005#32, Instr.index), (0x00000006#32, Instr.capacity),
      (0x00000007#32, Instr.sreset)]

/-- Decode and encode agree (30_encoding.md R90, R91): the word of every well-formed command decodes to
it, every accepted word is the word of the command it decodes to, and the accepted words are the
well-formed ones. -/
def Obligations.DecodeAndEncodeAgree : Prop :=
  (∀ i : Instr, i.wf = true → decode (encode i) = .ok i ∧ commandWordWf (encode i) = true) ∧
  (∀ (w : Word) (i : Instr), decode w = .ok i → encode i = w) ∧
  (∀ w : Word, commandWordWf w = true ↔ ∃ i, decode w = .ok i)

/-- A few command words written out from 30_encoding.md R90 and R91 decode to their commands, and the
examples of 44_commands.md R176 are rejected for the field that is wrong. -/
def Obligations.SampleWordsDecode : Prop :=
  decode 0x00000001#32 = .ok .encode ∧ decode 0x00000002#32 = .ok .decode ∧
  decode 0x00000007#32 = .ok .sreset ∧ decode 0x00000000#32 = .error .opNotAssigned ∧
  decode 0x00000008#32 = .error .opNotAssigned ∧ decode 0x00000101#32 = .error .mbzNotZero

/-- 30_encoding.md R94: a word whose MBZ is not zero, or whose OP is 0x00 or 0x08 to 0xFF, is illegal;
the engine completes it with ERRCODE = IllegalCommand (6) and no other effect. -/
def Obligations.IllegalWordCompletesWithIllegalCommand : Prop :=
  ∀ s : State, s.busy = true → nextTurn s = .engine →
    (s.eng.op.extractLsb' 8 24 ≠ 0 ∨ s.eng.op.extractLsb' 0 8 = 0 ∨ 8 ≤ (s.eng.op.extractLsb' 0 8).toNat) →
    ∃ t, step s = .next t ∧ t.errCode = 6 ∧
      t = { spendTurn s with
        status := { s.status with error := some .illegalCommand, done := true }
        eng := { s.eng with phase := .idle } }

/-! ## Steps -/

/-- While the engine is BUSY and has the next turn, a step is the meaning of the command it holds, applied
to the state with that turn used up (44_commands.md R171, 30_encoding.md R91). -/
def Obligations.StepRunsTheDecodedCommand : Prop :=
  ∀ (s : State) (i : Instr), s.busy = true → nextTurn s = .engine → decode s.eng.op = .ok i →
    i.wf = true → step s = exec i (spendTurn s)

/-- `RUN op` of a host (30_encoding.md R99): with nothing scheduled and the engine IDLE, its `SW CMD` gets
OKAY and makes the engine BUSY with op, and the step after it is the meaning of op (that the engine goes
first is the model's, log 4). -/
def Obligations.RunStartsAndCompletesTheCommand : Prop :=
  ∀ (s : State) (i : Instr) (rest : List HostOp), s.busy = false → s.sched = [] →
    s.host.prog = runOp i ++ rest →
    ∃ t, step s = .next t ∧ t.busy = true ∧ t.eng.op = encode i ∧ t.host.reply = some .okayWrite ∧
      t.host.prog = rest ∧ t.regs = s.regs ∧ t.pix = s.pix ∧ t.pay = s.pay ∧ step t = exec i t

/-- No step stops: every error is reported in STATUS or as a bus response (60_exceptions.md R206,
20_memory.md R72). -/
def Obligations.NoStepStops : Prop := ∀ s : State, ∃ t, step s = .next t

/-- Every accepted command completes or is abandoned by `rst`, at the latest when the scheduled turns are
used up (44_commands.md R171, 70_reset_and_hazards.md R246; the schedule is the model's, log 4). -/
def Obligations.EveryCommandCompletes : Prop :=
  ∀ s : State, s.busy = true →
    ∃ k ≤ s.sched.length + 1, ∃ t : State, core.run k s = .next t ∧ t.busy = false

/-- Every step keeps the invariant: legal parameters, canonical memories that list nothing past their
depths, no DONE or error while BUSY, no error code 2, and the LAT_MAX bound (the model's reading of it,
log 5). -/
def Obligations.StepKeepsInv : Prop :=
  ∀ s t : State, Inv s → step s = .next t → Inv t

/-- The machine right after reset has the invariant. -/
def Obligations.ResetHasInv : Prop := Inv State.reset

/-! ## Reset -/

/-- 70_reset_and_hazards.md R235: after reset every register reads 0, the engine is IDLE, the interrupt is
masked and not pending; every command but SRESET raises IllegalConfig. With nothing scheduled and a host
that has nothing to do, nothing happens (the empty schedule and host are the model's, logs 3 and 4). -/
def Obligations.StateAfterReset : Prop :=
  (∀ off, State.reset.readReg off = 0) ∧ State.reset.statusWord = 0 ∧ State.reset.busy = false ∧
  State.reset.intEn = false ∧ State.reset.status.done = false ∧ State.reset.irq = false ∧
  State.reset.regs.imgAvail = 0 ∧
  (∀ i : Instr, i ≠ .sreset → exec i State.reset = .next (State.reset.raise .illegalConfig)) ∧
  step State.reset = .next State.reset

/-- 70_reset_and_hazards.md R231, R233, R234: `rst` takes every register to its reset value, leaves the
engine IDLE and `irq` deasserted. Every memory byte keeps its value when the engine was IDLE, when the word it
held is none of ENCODE, DECODE and FILL, and when the command could have written nothing because its checks
fail (log 9). Channel 3 of a 3-channel image keeps its value in every case (20_memory.md R65). That `rst` is
a turn of the schedule is the model's, log 4. -/
def Obligations.HardwareReset : Prop :=
  ∀ s : State, nextTurn s = .rst →
    ∃ t, step s = .next t ∧ t = hardReset (spendTurn s) ∧ (∀ off, t.readReg off = 0) ∧ t.statusWord = 0 ∧
      t.busy = false ∧ t.irq = false ∧ t.par = s.par ∧ t.host = s.host ∧ t.sched = s.sched.tail ∧
      (s.busy = false ∨ writeSet s = .nothing ∨
        (s.eng.op ≠ encode .encode ∧ s.eng.op ≠ encode .decode ∧ s.eng.op ≠ encode .fill) ∨
        (s.eng.op = encode .encode ∧ encodeCheck s ≠ none) ∨
        (s.eng.op = encode .decode ∧ decodeCheck s ≠ none) ∨
        (s.eng.op = encode .fill ∧ fillCheck s ≠ none) →
          t.pix = s.pix ∧ t.pay = s.pay ∧ t.draws = s.draws) ∧
      (s.imgChannels = 3 → ∀ j, t.pixByte (4 * j + 3) = s.pixByte (4 * j + 3))

/-- 70_reset_and_hazards.md R234 for an ENCODE that `rst` abandons: the pixels of logical indices 0 to
NPIX(P) are fresh draws in channels 0 to C−1, one draw a pixel, each used once (log 9); every other byte keeps
its value, channel 3 of a 3-channel image too (20_memory.md R65). -/
def Obligations.AbandonedEncodeLeavesFreshWords : Prop :=
  ∀ s : State, s.busy = true → s.eng.op = encode .encode → EncodeRuns s →
    (hardReset s).pay = s.pay ∧
    (∀ i ≤ s.codec.npix s.paddedFrameLength, ∀ k < s.codec.ch,
      (hardReset s).pixByte (s.pixelOffset i + k) = byteOf (Config.freeWord (s.draws + i)) k) ∧
    (∀ b, (∀ i ≤ s.codec.npix s.paddedFrameLength, ∀ k < s.codec.ch, b ≠ s.pixelOffset i + k) →
      (hardReset s).pixByte b = s.pixByte b) ∧
    (hardReset s).draws = s.draws + (1 + s.codec.npix s.paddedFrameLength)

/-- 70_reset_and_hazards.md R234 for a FILL that `rst` abandons: PIX[0 .. N−1] are fresh draws in channels 0
to CI−1, one draw a pixel, each used once (log 9); every other byte keeps its value, channel 3 of a 3-channel
image too (20_memory.md R65). -/
def Obligations.AbandonedFillLeavesFreshWords : Prop :=
  ∀ s : State, s.busy = true → s.eng.op = encode .fill → s.ImgOK →
    (hardReset s).pay = s.pay ∧
    (∀ i < s.numPixels, ∀ k < s.imgChannels,
      (hardReset s).pixByte (s.pixelOffset i + k) = byteOf (Config.freeWord (s.draws + i)) k) ∧
    (∀ j, ∀ k < 4, (s.numPixels ≤ j ∨ s.imgChannels ≤ k) →
      (hardReset s).pixByte (4 * j + k) = s.pixByte (4 * j + k)) ∧
    (hardReset s).draws = s.draws + s.numPixels

/-- 70_reset_and_hazards.md R234 for a DECODE that `rst` abandons: PAY[0 .. L−F−1] are fresh draws, every
other byte keeps its value (one draw a byte, each used once: the model's choice, log 9). -/
def Obligations.AbandonedDecodeLeavesFreshBytes : Prop :=
  ∀ s : State, s.busy = true → s.eng.op = encode .decode → DecodeRuns s →
    (hardReset s).pix = s.pix ∧
    (∀ k < decodeLength s - s.fixedPart,
      (hardReset s).payByte k = (Config.freeWord (s.draws + k)).setWidth 8) ∧
    (∀ k, decodeLength s - s.fixedPart ≤ k → (hardReset s).payByte k = s.payByte k) ∧
    (hardReset s).draws = s.draws + (decodeLength s - s.fixedPart)

/-! ## The bus -/

/-- 20_memory.md R72: an ERROR response returns read data 0 and changes no state. -/
def Obligations.BusErrorChangesNothing : Prop :=
  ∀ (z : Size) (a : BusAddr) (v : Word) (s : State),
    ((busRead z a s).1 = .error → (busRead z a s).1.data = 0 ∧ (busRead z a s).2 = s) ∧
    ((busWrite z a v s).1 = .error → (busWrite z a v s).2 = s)

/-- When the response is ERROR (20_memory.md R61, R69, R70): an unmapped address, a register access that is
not 4 bytes, a misaligned address, or bytes past a memory's depth (the last byte's place: log 8). -/
def Obligations.BusErrorExactlyWhenIllegal : Prop :=
  ∀ (z : Size) (a : BusAddr) (v : Word) (s : State),
    let n := a.toNat
    let bad := (0x100 ≤ n ∧ n < 0x100000) ∨ (0x200000 ≤ n ∧ n < 0x800000) ∨ (n < 0x100 ∧ z ≠ .word) ∨
      n % z.bytes ≠ 0 ∨ (0x100000 ≤ n ∧ n < 0x200000 ∧ s.par.payDepth < n - 0x100000 + z.bytes) ∨
      (0x800000 ≤ n ∧ 4 * s.par.pixDepth < n - 0x800000 + z.bytes)
    ((busRead z a s).1 = .error ↔ bad) ∧ ((busWrite z a v s).1 = .error ↔ bad)

/-- 20_memory.md R76: while BUSY a write that is not an ERROR is ignored and sets WIGN; a read of STATUS
returns its value; any other read returns the next fresh draw and changes nothing else (of CMD and the
reserved offsets too: the model's choice, log 10). -/
def Obligations.AccessWhileBusy : Prop :=
  ∀ (z : Size) (a : BusAddr) (v : Word) (s : State), s.busy = true →
    ((busWrite z a v s).1 ≠ .error →
      busWrite z a v s = (.okayWrite, { s with status := { s.status with wign := true } })) ∧
    busRead .word 0x000004 s = (.okayRead s.statusWord, s) ∧
    ((busRead z a s).1 ≠ .error → a ≠ 0x000004 →
      busRead z a s = (.okayRead (Config.freeWord s.draws), { s with draws := s.draws + 1 }))

/-- No host turn changes what a BUSY command reads: the registers, the memories, the engine (20_memory.md
R76: "the registers and memories a command reads cannot change while it runs"). -/
def Obligations.HostTurnWhileBusyKeepsOperands : Prop :=
  ∀ s : State, s.busy = true →
    (hostTurn s).regs = s.regs ∧ (hostTurn s).eng = s.eng ∧ (hostTurn s).pix = s.pix ∧
    (hostTurn s).pay = s.pay ∧ (hostTurn s).par = s.par ∧ (hostTurn s).sched = s.sched ∧
    ((hostTurn s).status = s.status ∨ (hostTurn s).status = { s.status with wign := true })

/-- 20_memory.md R71: no read of any register or memory has a side effect while BUSY = 0. -/
def Obligations.ReadsHaveNoSideEffect : Prop :=
  ∀ (z : Size) (a : BusAddr) (s : State), s.busy = false → (busRead z a s).2 = s

/-- The register map of 10_state.md R21, read over the bus while IDLE; CMD reads 0 (R24). -/
def Obligations.RegisterMapReads : Prop :=
  ∀ s : State, s.busy = false → ∀ p ∈
    [(0x000, s.regs.ctrl.setWidth 32), (0x004, s.statusWord), (0x008, 0), (0x00C, s.regs.imgW.setWidth 32),
     (0x010, s.regs.imgH.setWidth 32), (0x014, s.regs.imgCh.setWidth 32), (0x018, s.regs.imgAvail),
     (0x01C, s.regs.fillColor), (0x020, s.regs.plen), (0x024, s.regs.frameLen), (0x028, s.regs.padLen),
     (0x02C, s.regs.capEnc), (0x030, s.regs.capDec), (0x034, s.regs.arg), (0x038, s.regs.res),
     (0x040, s.regs.id0), (0x044, s.regs.id1), (0x048, s.regs.id2), (0x04C, s.regs.id3),
     ((0x050 : BusAddr), (s.regs.vb : Word))],
    busRead .word p.1 s = (.okayRead p.2, s)

/-- 10_state.md R21, R39: the host reads back what it last wrote to the implemented bits of a read-write
register, and no other register, memory byte or flag changes; a write to a read-only register is ignored. -/
def Obligations.RegisterMapWrites : Prop :=
  ∀ (s : State) (v : Word), s.busy = false →
    (∀ a ∈ [(0x024 : BusAddr), 0x028, 0x02C, 0x030, 0x038], busWrite .word a v s = (.okayWrite, s)) ∧
    ∀ p ∈ [(0x000, 0x7F), (0x00C, 0xFFFF), (0x010, 0xFFFF), (0x014, 0x7), (0x018, 0xFFFFFFFF),
     (0x01C, 0xFFFFFFFF), (0x020, 0xFFFFFFFF), (0x034, 0xFFFFFFFF), (0x040, 0xFFFFFFFF),
     (0x044, 0xFFFFFFFF), (0x048, 0xFFFFFFFF), (0x04C, 0xFFFFFFFF), ((0x050 : BusAddr), (0xFFFFFFFF : Word))],
    ∃ t, busWrite .word p.1 v s = (.okayWrite, t) ∧ busRead .word p.1 t = (.okayRead (v &&& p.2), t) ∧
      (∀ off, off ≠ p.1.toNat → t.readReg off = s.readReg off) ∧
      t = { s with regs := t.regs }

/-- 10_state.md R39: the reserved offsets 0x03C and 0x054 to 0x0FF read 0 and ignore writes, with an OKAY
response and no effect; the reserved bits of the implemented registers read 0. -/
def Obligations.ReservedOffsetsAndBits : Prop :=
  ∀ (s : State) (v : Word), s.busy = false →
    (∀ a : BusAddr, a.toNat % 4 = 0 → (a.toNat = 0x03C ∨ 0x054 ≤ a.toNat ∧ a.toNat < 0x100) →
      busRead .word a s = (.okayRead 0, s) ∧ busWrite .word a v s = (.okayWrite, s)) ∧
    s.readReg 0x000 >>> 7 = 0 ∧ s.readReg 0x004 >>> 13 = 0 ∧ s.readReg 0x004 &&& 0xF0 = 0 ∧
    s.readReg 0x00C >>> 16 = 0 ∧ s.readReg 0x010 >>> 16 = 0 ∧ s.readReg 0x014 >>> 3 = 0

/-- 10_state.md R23: a host write of v to STATUS while BUSY = 0 clears the bits among DONE and WIGN that v
has set, and changes nothing else. -/
def Obligations.StatusWriteOneToClear : Prop :=
  ∀ (s : State) (v : Word), s.busy = false →
    ∃ t, busWrite .word 0x000004 v s = (.okayWrite, t) ∧
      t.statusWord = s.statusWord &&& ~~~(v &&& 0x0000000A) ∧ t = { s with status := t.status }

/-- 10_state.md R23: the fields of the STATUS word; ERR is always (ERRCODE ≠ 0). -/
def Obligations.StatusWordFields : Prop :=
  ∀ s : State, s.statusWord.getLsbD 0 = s.busy ∧ s.statusWord.getLsbD 1 = s.status.done ∧
    s.statusWord.getLsbD 2 = decide (s.statusWord.extractLsb' 8 4 ≠ 0) ∧
    s.statusWord.getLsbD 3 = s.status.wign ∧ s.statusWord.extractLsb' 4 4 = 0 ∧
    s.statusWord.extractLsb' 8 4 = s.errCode ∧ s.statusWord.getLsbD 12 = s.status.idSent ∧
    s.statusWord.extractLsb' 13 19 = 0

/-- 44_commands.md R170: a host write of v to CMD while BUSY = 0 gets OKAY, clears DONE and ERRCODE (so ERR
reads 0), sets BUSY and gives the engine the word v; WIGN, ID_SENT and everything else stay. While BUSY = 1
it starts nothing and only sets WIGN. -/
def Obligations.CmdWriteIsAccepted : Prop :=
  ∀ (s : State) (v : Word),
    (s.busy = true → busWrite .word 0x000008 v s
      = (.okayWrite, { s with status := { s.status with wign := true } })) ∧
    (s.busy = false → ∃ t, busWrite .word 0x000008 v s = (.okayWrite, t) ∧ t.busy = true ∧ t.eng.op = v ∧
      t.status.done = false ∧ t.errCode = 0 ∧ t.errFlag = false ∧ t.status.wign = s.status.wign ∧
      t.status.idSent = s.status.idSent ∧
      t = { s with
        status := { s.status with done := false, error := none }
        eng := { s.eng with phase := .busy, op := v }
        waited := 0 })

/-- 20_memory.md R67: an OKAY write of n bytes to a window while BUSY = 0 puts byte k of the data at the
address a + k, and leaves every other byte of both memories and every register alone. -/
def Obligations.WindowWriteIsLittleEndian : Prop :=
  ∀ (z : Size) (a : BusAddr) (v : Word) (s : State), s.busy = false → (busWrite z a v s).1 = .okayWrite →
    (0x100000 ≤ a.toNat → a.toNat < 0x200000 →
      (∀ k < z.bytes, (busWrite z a v s).2.payByte (a.toNat - 0x100000 + k) = v.extractLsb' (8 * k) 8) ∧
      (∀ b, (b < a.toNat - 0x100000 ∨ a.toNat - 0x100000 + z.bytes ≤ b) →
        (busWrite z a v s).2.payByte b = s.payByte b) ∧
      (busWrite z a v s).2 = { s with pay := (busWrite z a v s).2.pay }) ∧
    (0x800000 ≤ a.toNat →
      (∀ k < z.bytes, (busWrite z a v s).2.pixByte (a.toNat - 0x800000 + k) = v.extractLsb' (8 * k) 8) ∧
      (∀ b, (b < a.toNat - 0x800000 ∨ a.toNat - 0x800000 + z.bytes ≤ b) →
        (busWrite z a v s).2.pixByte b = s.pixByte b) ∧
      (busWrite z a v s).2 = { s with pix := (busWrite z a v s).2.pix })

/-- 20_memory.md R67: an OKAY read of n bytes of a window while BUSY = 0 returns the byte at a + k in bits
8k+7:8k of the data, and 0 above. -/
def Obligations.WindowReadIsLittleEndian : Prop :=
  ∀ (z : Size) (a : BusAddr) (s : State), s.busy = false → (busRead z a s).1 ≠ .error →
    (0x100000 ≤ a.toNat → a.toNat < 0x200000 → ∀ k < 4, (busRead z a s).1.data.extractLsb' (8 * k) 8
      = if k < z.bytes then s.payByte (a.toNat - 0x100000 + k) else 0) ∧
    (0x800000 ≤ a.toNat → ∀ k < 4, (busRead z a s).1.data.extractLsb' (8 * k) 8
      = if k < z.bytes then s.pixByte (a.toNat - 0x800000 + k) else 0)

/-! ## The host's instructions -/

/-- 30_encoding.md R98: each host instruction is one bus access, while IDLE and while BUSY (where the turn is
counted, log 5). A store writes the low 4, 2 or 1 bytes of its value and changes no name; a load puts the
data read, zero-extended from its size, into its name and changes no other name. -/
def Obligations.HostInstructionsAreOneAccess : Prop :=
  ∀ (s : State) (rest : List HostOp), nextTurn s = .host →
    let s1 := { spendTurn s with waited := if s.busy then s.waited + 1 else s.waited }
    let stored := fun z a v => { (busWrite z a v s1).2 with
      host := { s.host with prog := rest, reply := some (busWrite z a v s1).1 } }
    let loads := fun z r a => ∃ h : HostSide,
      step s = .next { (busRead z a s1).2 with host := h } ∧ h.prog = rest ∧
      h.reply = some (busRead z a s1).1 ∧
      (h.value r).toNat = (busRead z a s1).1.data.toNat % 2 ^ (8 * z.bytes) ∧
      ∀ q, q ≠ r → h.value q = s.host.value q
    (∀ a v, s.host.prog = .sw a v :: rest → step s = .next (stored .word a v)) ∧
    (∀ a v, s.host.prog = .sh a v :: rest → step s = .next (stored .half a (v.setWidth 32))) ∧
    (∀ a v, s.host.prog = .sb a v :: rest → step s = .next (stored .byte a (v.setWidth 32))) ∧
    (∀ r a, s.host.prog = .lw r a :: rest → loads .word r a) ∧
    (∀ r a, s.host.prog = .lh r a :: rest → loads .half r a) ∧
    (∀ r a, s.host.prog = .lb r a :: rest → loads .byte r a)

/-- `WAIT` (30_encoding.md R99): it reads STATUS, stays at the head of the program while BUSY is set, and
is done once BUSY reads 0; no other name changes. -/
def Obligations.WaitPollsStatus : Prop :=
  ∀ (s : State) (r : Nat) (rest : List HostOp), nextTurn s = .host → s.host.prog = .wait r :: rest →
    ∃ t, step s = .next t ∧ t.host.value r = s.statusWord ∧
      (∀ q, q ≠ r → t.host.value q = s.host.value q) ∧ t.host.reply = some (.okayRead s.statusWord) ∧
      t.host.prog = (if s.busy then .wait r :: rest else rest) ∧
      t.regs = s.regs ∧ t.status = s.status ∧ t.eng = s.eng ∧ t.pix = s.pix ∧ t.pay = s.pay ∧
      t.draws = s.draws

/-! ## Completion, errors and the interrupt -/

/-- 44_commands.md R171: every command except SRESET completes with BUSY = 0 and DONE = 1, and in ERRCODE 0
or the code of the first of its checks that fails (60_exceptions.md R201, R203); WIGN stays, and only DECODE
may change ID_SENT. -/
def Obligations.CompletionFlags : Prop :=
  ∀ (i : Instr) (s : State), i ≠ .sreset →
    ∃ t, exec i s = .next t ∧ t.busy = false ∧ t.status.done = true ∧
      t.errCode = (match i with
        | .encode => encodeCheck s
        | .decode => decodeCheck s
        | .fill => fillCheck s
        | .addr => addrCheck s
        | .index => indexCheck s
        | .capacity => capacityCheck s
        | .sreset => none).elim 0 ErrorKind.code ∧
      t.status.wign = s.status.wign ∧ (i ≠ .decode → t.status.idSent = s.status.idSent)

/-- 60_exceptions.md R204: when a command raises, the only state it changes is STATUS (BUSY, DONE,
ERRCODE). -/
def Obligations.ErrorsChangeOnlyStatus : Prop :=
  ∀ (i : Instr) (s t : State), exec i s = .next t → t.status.error ≠ none →
    t = { s with
      status := { s.status with error := t.status.error, done := true }
      eng := { s.eng with phase := .idle } }

/-- 60_exceptions.md R201: which error codes each command can end with; codes 2 and 10 to 15 never occur. -/
def Obligations.ErrorCodesOfEachCommand : Prop :=
  ∀ (i : Instr) (s t : State), exec i s = .next t → t.errCode.toNat ∈
    (match i with
      | .encode => [0, 1, 5, 7, 8]
      | .decode => [0, 3, 4, 5, 7, 9]
      | .fill => [0, 7]
      | .addr => [0, 1, 7]
      | .index => [0, 1, 7]
      | .capacity => [0, 7]
      | .sreset => [0])

/-- 60_exceptions.md R207: `irq` is DONE and CTRL.IE; it is asserted when a command other than SRESET, or
an illegal word, completes with CTRL.IE = 1, whatever its error code. -/
def Obligations.IrqOnCompletion : Prop :=
  (∀ s : State, s.irq = (s.statusWord.getLsbD 1 && (s.readReg 0x000).getLsbD 6)) ∧
  (∀ (i : Instr) (s t : State), i ≠ .sreset → exec i s = .next t → t.irq = s.intEn) ∧
  (∀ s : State, (illegalCommand s).irq = s.intEn)

/-- 60_exceptions.md R208: completion sets DONE whatever IE is, so setting IE asserts `irq` at once; a write of
1 to DONE, the acceptance of the next command, SRESET and reset clear it. -/
def Obligations.IrqEnableAndClear : Prop :=
  (∀ (i : Instr) (s t : State), i ≠ .sreset → exec i s = .next t → t.status.done = true) ∧
  (∀ (s : State) (v : Word), s.busy = false → s.status.done = true →
    (busWrite .word 0x000000 v s).2.irq = v.getLsbD 6) ∧
  (∀ (s : State) (v : Word), s.busy = false → v.getLsbD 1 = true →
    (busWrite .word 0x000004 v s).2.irq = false) ∧
  (∀ (s : State) (v : Word), s.busy = false → (busWrite .word 0x000008 v s).2.irq = false) ∧
  (∀ s t : State, exec .sreset s = .next t → t.irq = false) ∧
  (∀ s : State, (hardReset s).irq = false)

/-- Which registers each command may change (10_state.md R22, R25 to R38): every other register, and the
parameters, the host and the schedule, stay. -/
def Obligations.CommandsWriteOnlyTheirRegisters : Prop :=
  ∀ (i : Instr) (s t : State), exec i s = .next t → i ≠ .sreset →
    t.par = s.par ∧ t.host = s.host ∧ t.sched = s.sched ∧ t.waited = s.waited ∧ t.draws = s.draws ∧
    t.eng.op = s.eng.op ∧ t.regs =
    (match i with
      | .encode => { s.regs with
          frameLen := t.regs.frameLen, padLen := t.regs.padLen, imgAvail := t.regs.imgAvail }
      | .decode => { s.regs with
          plen := t.regs.plen, frameLen := t.regs.frameLen, padLen := t.regs.padLen
          id0 := t.regs.id0, id1 := t.regs.id1, id2 := t.regs.id2, id3 := t.regs.id3, vb := t.regs.vb }
      | .fill => { s.regs with imgAvail := t.regs.imgAvail }
      | .addr => { s.regs with res := t.regs.res }
      | .index => { s.regs with res := t.regs.res }
      | .capacity => { s.regs with capEnc := t.regs.capEnc, capDec := t.regs.capDec }
      | .sreset => s.regs)

/-- PAYMEM is written by DECODE alone and PIXMEM by ENCODE and FILL alone; no command writes a word past
the image (20_memory.md R62), nor channel 3 of a 3-channel image (20_memory.md R65). -/
def Obligations.CommandsWriteOnlyTheImage : Prop :=
  ∀ (i : Instr) (s t : State), exec i s = .next t →
    (i ≠ .decode → t.pay = s.pay) ∧ (i ≠ .encode → i ≠ .fill → t.pix = s.pix) ∧
    (∀ b, 4 * s.numPixels ≤ b → t.pixByte b = s.pixByte b) ∧
    (s.imgChannels = 3 → ∀ j, t.pixByte (4 * j + 3) = s.pixByte (4 * j + 3))

/-! ## Scan order and capacity -/

/-- 40_scan_order.md R112: `address` and `index` are inverse on the image, and `index` is strictly
increasing in traversal order. -/
def Obligations.ScanOrderBijection : Prop :=
  ∀ w h : Nat,
    (∀ x < w, ∀ y < h, address w (indexOf w x y) = (x, y) ∧ indexOf w x y < w * h) ∧
    (∀ i < w * h, indexOf w (address w i).1 (address w i).2 = i ∧
      (address w i).1 < w ∧ (address w i).2 < h) ∧
    (∀ x < w, ∀ x' < w, ∀ y < h, ∀ y' < h, (y < y' ∨ y = y' ∧ x' < x) →
      indexOf w x y < indexOf w x' y')

/-- 40_scan_order.md R114: ADDR. -/
def Obligations.AddrResult : Prop :=
  ∀ s : State,
    (¬s.DimOK → exec .addr s = .next (s.raise .illegalConfig)) ∧
    (s.DimOK → s.numPixels ≤ s.regs.arg.toNat → exec .addr s = .next (s.raise .capacityExceeded)) ∧
    (s.DimOK → s.regs.arg.toNat < s.numPixels → ∃ t, exec .addr s = .next t ∧
      (t.regs.res.extractLsb' 0 16).toNat = s.width - 1 - s.regs.arg.toNat % s.width ∧
      (t.regs.res.extractLsb' 16 16).toNat = s.regs.arg.toNat / s.width ∧
      t = { s with
        regs := { s.regs with res := t.regs.res }
        status := { s.status with error := none, done := true }
        eng := { s.eng with phase := .idle } })

/-- 40_scan_order.md R115: INDEX, with x = ARG[15:0] and y = ARG[31:16]. -/
def Obligations.IndexResult : Prop :=
  ∀ s : State,
    let x := s.regs.arg.toNat % 65536
    let y := s.regs.arg.toNat / 65536
    (¬s.DimOK → exec .index s = .next (s.raise .illegalConfig)) ∧
    (s.DimOK → (s.width ≤ x ∨ s.height ≤ y) → exec .index s = .next (s.raise .capacityExceeded)) ∧
    (s.DimOK → x < s.width → y < s.height → ∃ t, exec .index s = .next t ∧
      t.regs.res.toNat = y * s.width + (s.width - 1 - x) ∧
      t = { s with
        regs := { s.regs with res := t.regs.res }
        status := { s.status with error := none, done := true }
        eng := { s.eng with phase := .idle } })

/-- 40_scan_order.md R116 with the capacities of R113: CAPACITY, which does not read IMG_CH. -/
def Obligations.CapacityResult : Prop :=
  ∀ s : State, s.par.Legal →
    (¬(s.DimOK ∧ s.codec.OK) → exec .capacity s = .next (s.raise .illegalConfig)) ∧
    (s.DimOK → s.codec.OK → ∃ t, exec .capacity s = .next t ∧
      t.regs.capEnc.toNat = (if s.pmodeBit then min (3 * ((s.numPixels - 1) / 9)) (2 ^ 24 - 1)
        else min ((s.numPixels - 1) * s.ctrlCh) (2 ^ (8 * s.ctrlCh) - 1)) ∧
      t.regs.capDec.toNat = (if s.pmodeBit then (s.numPixels - 1) / 3
        else (s.numPixels - 1) * s.ctrlCh) ∧
      t = { s with
        regs := { s.regs with capEnc := t.regs.capEnc, capDec := t.regs.capDec }
        status := { s.status with error := none, done := true }
        eng := { s.eng with phase := .idle } })

/-- 40_scan_order.md R113: in byte mode ECAP = DCAP when (N−1)·C ≤ HMAX; in bit mode, when the bound does
not apply, DCAP − ECAP = ((N−1) mod 9) div 3, which is 0, 1 or 2. -/
def Obligations.EncodeAndDecodeCapacities : Prop :=
  ∀ (k : Codec) (n : Nat), k.OK →
    (k.bit = false → (n - 1) * k.ch ≤ k.hmax → k.ecap n = k.dcap n) ∧
    (k.bit = true → 3 * ((n - 1) / 9) ≤ k.hmax →
      k.dcap n = k.ecap n + (n - 1) % 9 / 3 ∧ (n - 1) % 9 / 3 ≤ 2)

/-! ## The format -/

/-- 41_header.md R122: parsing the header pixel gives back the length it was built from, whatever channel
3 of a 3-channel pixel holds. -/
def Obligations.HeaderRoundTrip : Prop :=
  ∀ (l c : Nat) (p : Pixel), (c = 3 ∨ c = 4) → l ≤ 2 ^ (8 * c) - 1 →
    (∀ k (hk : k < (hdrPack l c).length), p.chan k = (hdrPack l c)[k]) → hdrParse p c = l

/-- 42_packer.md R130: 0 to C−1 pad bytes make the frame's length a multiple of C; the padded frame is the
frame and then bytes 0x10. -/
def Obligations.PaddingRule : Prop :=
  ∀ (c : Nat) (fr : List Byte), 0 < c →
    padLen fr.length c < c ∧ (padded c fr).length % c = 0 ∧
    (padded c fr).length = fr.length + padLen fr.length c ∧
    ∀ j < (padded c fr).length, (padded c fr).getD j 0 = if j < fr.length then fr.getD j 0 else 0x10

/-- 43_frame.md R151, R152: the frame ENCODE packs, byte by byte: identifier block (the bank, or sixteen
0xFF), version/mode block and payload with STRUCTURED framing, the payload alone with RAW framing. -/
def Obligations.FrameBytesOfEncode : Prop :=
  ∀ s : State, s.frameBytes.length = s.frameLength ∧
    (s.structured = false → ∀ j < s.payloadLen, s.frameBytes.getD j 0 = s.payByte j) ∧
    (s.structured = true →
      (∀ j < 4, s.frameBytes.getD j 0 = (if s.idEn then byteOf s.regs.id0 j else 0xFF)) ∧
      (∀ j < 4, s.frameBytes.getD (4 + j) 0 = (if s.idEn then byteOf s.regs.id1 j else 0xFF)) ∧
      (∀ j < 4, s.frameBytes.getD (8 + j) 0 = (if s.idEn then byteOf s.regs.id2 j else 0xFF)) ∧
      (∀ j < 4, s.frameBytes.getD (12 + j) 0 = (if s.idEn then byteOf s.regs.id3 j else 0xFF)) ∧
      (∀ j < 4, s.frameBytes.getD (16 + j) 0 = byteOf s.regs.vb j) ∧
      (∀ j < s.payloadLen, s.frameBytes.getD (20 + j) 0 = s.payByte j))

/-- 42_packer.md R139: `BitMerge(BitSplit(b)) = b` for every byte, whatever the channels that are not read
hold. -/
def Obligations.BitMergeOfBitSplit : Prop :=
  ∀ (b x0 x1 x2 y : Byte) (q0 q1 q2 : List Byte), bitSplit b = [q0, q1, q2] →
    bitMerge ⟨q0.getD 0 0, q0.getD 1 0, q0.getD 2 0, x0⟩ ⟨q1.getD 0 0, q1.getD 1 0, q1.getD 2 0, x1⟩
      ⟨q2.getD 0 0, q2.getD 1 0, y, x2⟩ = b

/-! ## ENCODE -/

/-- 40_scan_order.md R113, 44_commands.md R178: with a legal configuration, ENCODE accepts a frame of
length L ≥ 1 exactly when L ≤ ECAP, and otherwise raises CapacityExceeded. -/
def Obligations.EncodeAcceptsExactlyUpToEcap : Prop :=
  ∀ s : State, s.ImgOK → s.codec.OK → s.payloadLen ≤ s.par.payDepth → s.imgChannels = s.codec.ch →
    1 ≤ s.frameLength →
    (s.frameLength ≤ s.codec.ecap s.numPixels → ∃ t, exec .encode s = .next t ∧ t.errCode = 0) ∧
    (s.codec.ecap s.numPixels < s.frameLength →
      exec .encode s = .next (s.raise .capacityExceeded))

/-- 44_commands.md R172, 60_exceptions.md R203: the errors of ENCODE, in their order of precedence. -/
def Obligations.EncodeErrorsInOrder : Prop :=
  ∀ s : State,
    let legal := s.ImgOK ∧ s.codec.OK ∧ s.payloadLen ≤ s.par.payDepth
    (¬legal → exec .encode s = .next (s.raise .illegalConfig)) ∧
    (legal → s.imgChannels ≠ s.codec.ch → exec .encode s = .next (s.raise .unsupportedGeneration)) ∧
    (legal → s.imgChannels = s.codec.ch → s.structured = false → s.payloadLen = 0 →
      exec .encode s = .next (s.raise .emptyFrame)) ∧
    (legal → s.imgChannels = s.codec.ch → 1 ≤ s.frameLength →
      (2 ^ (8 * s.codec.ch) - 1 < s.frameLength ∨
        s.numPixels < 1 + s.codec.npix s.paddedFrameLength) →
      exec .encode s = .next (s.raise .capacityExceeded))

/-- 44_commands.md R172: what a successful ENCODE leaves in the registers and flags, the header pixel
(41_header.md R121), and PAYMEM. -/
def Obligations.EncodeRegistersAndHeader : Prop :=
  ∀ s : State, EncodeRuns s → ∃ t, exec .encode s = .next t ∧
    t.regs.frameLen.toNat = s.fixedPart + s.regs.plen.toNat ∧
    t.regs.padLen.toNat = padLen s.frameLength s.codec.ch ∧
    t.regs.imgAvail.toNat = s.width * s.height ∧
    t.regs = { s.regs with
      frameLen := t.regs.frameLen, padLen := t.regs.padLen, imgAvail := t.regs.imgAvail } ∧
    t.status = { s.status with error := none, done := true } ∧ t.busy = false ∧
    (t.chanAt 0 0).toNat = s.frameLength / 2 ^ 16 % 256 ∧
    (t.chanAt 0 1).toNat = s.frameLength / 2 ^ 8 % 256 ∧
    (t.chanAt 0 2).toNat = s.frameLength % 256 ∧
    (s.codec.ch = 4 → (t.chanAt 0 3).toNat = s.frameLength / 2 ^ 24) ∧
    t.pay = s.pay

/-- 42_packer.md R132: in byte mode, byte j of the padded frame is channel (j mod C) of the pixel at
logical index 1 + (j div C). -/
def Obligations.EncodeByteModePlacement : Prop :=
  ∀ s : State, EncodeRuns s → s.codec.bit = false → ∃ t, exec .encode s = .next t ∧
    ∀ j < s.paddedFrameLength,
      t.chanAt (1 + j / s.codec.ch) (j % s.codec.ch) = (padded s.codec.ch s.frameBytes).getD j 0

/-- 42_packer.md R135, R136: in bit mode, bit n of byte j of the padded frame is channel (n mod 3) of the
pixel at logical index 1 + 3j + (n div 3), 255 or 0, and channel 2 of the third pixel is 0. -/
def Obligations.EncodeBitModePlacement : Prop :=
  ∀ s : State, EncodeRuns s → s.codec.bit = true → ∃ t, exec .encode s = .next t ∧
    ∀ j < s.paddedFrameLength,
      (∀ n < 8, t.chanAt (1 + 3 * j + n / 3) (n % 3)
        = if ((padded s.codec.ch s.frameBytes).getD j 0).getLsbD n then 255 else 0) ∧
      t.chanAt (3 + 3 * j) 2 = 0

/-- 44_commands.md R172: ENCODE writes channels 0 to C−1 of the pixels at logical indices 0 to NPIX(P), "no
other pixel, and no PAYMEM byte". -/
def Obligations.EncodeWritesNoOtherByte : Prop :=
  ∀ s : State, EncodeRuns s → ∃ t, exec .encode s = .next t ∧ t.pay = s.pay ∧
    ∀ b, (∀ i ≤ s.codec.npix s.paddedFrameLength, ∀ k < s.codec.ch, b ≠ s.pixelOffset i + k) →
      t.pixByte b = s.pixByte b

/-! ## DECODE -/

/-- 44_commands.md R173, 60_exceptions.md R203: the errors of DECODE, in their order of precedence. -/
def Obligations.DecodeErrorsInOrder : Prop :=
  ∀ s : State,
    let legal := s.ImgOK ∧ s.codec.OK ∧ s.regs.imgAvail.toNat ≤ s.numPixels
    let l := decodeLength s
    let valid := HdrValid l (s.codec.dcap s.numPixels) s.fixedPart
    (¬legal → exec .decode s = .next (s.raise .illegalConfig)) ∧
    (legal → s.imgChannels ≠ s.codec.ch → exec .decode s = .next (s.raise .unsupportedGeneration)) ∧
    (legal → s.imgChannels = s.codec.ch → s.regs.imgAvail = 0 →
      exec .decode s = .next (s.raise .truncatedImage)) ∧
    (legal → s.imgChannels = s.codec.ch → s.regs.imgAvail ≠ 0 → ¬valid →
      exec .decode s = .next (s.raise .corruptHeader)) ∧
    (legal → s.imgChannels = s.codec.ch → s.regs.imgAvail ≠ 0 → valid →
      s.par.payDepth < l - s.fixedPart → exec .decode s = .next (s.raise .bufferOverflow)) ∧
    (legal → s.imgChannels = s.codec.ch → s.regs.imgAvail ≠ 0 → valid →
      l - s.fixedPart ≤ s.par.payDepth → s.regs.imgAvail.toNat < 1 + s.codec.nread l →
      exec .decode s = .next (s.raise .truncatedImage))

/-- 44_commands.md R179: the data pixels of a frame of one byte less are too few in bit mode, and in byte
mode when L ≡ 1 (mod C); an image with just those pixels present raises TruncatedImage (if PAYMEM holds
the payload: otherwise BufferOverflow comes first, R203). -/
def Obligations.TruncationIsDetected : Prop :=
  ∀ s : State, s.ImgOK → s.codec.OK → s.regs.imgAvail.toNat ≤ s.numPixels →
    s.imgChannels = s.codec.ch → HdrValid (decodeLength s) (s.codec.dcap s.numPixels) s.fixedPart →
    decodeLength s - s.fixedPart ≤ s.par.payDepth →
    (s.codec.bit = true ∨ decodeLength s % s.codec.ch = 1) →
    s.regs.imgAvail.toNat = 1 + s.codec.nread (decodeLength s - 1) →
    exec .decode s = .next (s.raise .truncatedImage)

/-- 44_commands.md R173, 43_frame.md R154 to R156: what a successful DECODE writes, in terms of the L frame
bytes it unpacks; PIXMEM is never written. -/
def Obligations.DecodeResult : Prop :=
  ∀ s : State, DecodeRuns s →
    let l := decodeLength s
    let fr := fun j => (decodeFrame s).getD j 0
    ∃ t, exec .decode s = .next t ∧ t.status.error = none ∧ t.status.done = true ∧ t.busy = false ∧
      t.regs.plen.toNat = l - s.fixedPart ∧ t.regs.frameLen.toNat = l ∧
      t.regs.padLen.toNat = padLen l s.codec.ch ∧
      (∀ p < l - s.fixedPart, t.payByte p = fr (s.fixedPart + p)) ∧
      (∀ p, l - s.fixedPart ≤ p → t.payByte p = s.payByte p) ∧ t.pix = s.pix ∧
      (s.structured = false → t.status.idSent = false ∧ t.regs.id0 = s.regs.id0 ∧
        t.regs.id1 = s.regs.id1 ∧ t.regs.id2 = s.regs.id2 ∧ t.regs.id3 = s.regs.id3 ∧
        t.regs.vb = s.regs.vb) ∧
      (s.structured = true → (t.status.idSent = true ↔ ∀ j < 16, fr j = 0xFF) ∧
        ∀ k < 4, byteOf t.regs.id0 k = fr k ∧ byteOf t.regs.id1 k = fr (4 + k) ∧
          byteOf t.regs.id2 k = fr (8 + k) ∧ byteOf t.regs.id3 k = fr (12 + k) ∧
          byteOf t.regs.vb k = fr (16 + k))

/-- 41_header.md R122, 42_packer.md R132, R134, R138, R139, 43_frame.md R155: DECODE reads L from the
channels of the pixel at logical index 0 and unpacks exactly L bytes; byte j is channel
(j mod C) of the pixel at logical index 1 + (j div C) in byte mode; in bit mode its bit n is 1 exactly
when channel (n mod 3) of the pixel at logical index 1 + 3j + (n div 3) is 255. -/
def Obligations.DecodeUnpacksTheFrame : Prop :=
  ∀ s : State, s.codec.OK →
    (s.codec.ch = 3 → decodeLength s = (s.chanAt 0 0).toNat * 2 ^ 16 + (s.chanAt 0 1).toNat * 2 ^ 8
      + (s.chanAt 0 2).toNat) ∧
    (s.codec.ch = 4 → decodeLength s = (s.chanAt 0 3).toNat * 2 ^ 24 + (s.chanAt 0 0).toNat * 2 ^ 16
      + (s.chanAt 0 1).toNat * 2 ^ 8 + (s.chanAt 0 2).toNat) ∧
    (decodeFrame s).length = decodeLength s ∧ ∀ j < decodeLength s,
    (s.codec.bit = false →
      (decodeFrame s).getD j 0 = s.chanAt (1 + j / s.codec.ch) (j % s.codec.ch)) ∧
    (s.codec.bit = true → ∀ n < 8, ((decodeFrame s).getD j 0).getLsbD n
      = decide (s.chanAt (1 + 3 * j + n / 3) (n % 3) = 255))

/-- 42_packer.md R131, R134: decoding depends on the header's channels and on the channels of the L frame
bytes only: pad bytes, channels that are not read and every other byte of PIXMEM may differ. -/
def Obligations.DecodeIgnoresPaddingAndUnusedPixels : Prop :=
  ∀ (s : State) (m : Memory), s.codec.OK →
    let u := { s with pix := m }
    (∀ k < s.codec.ch, u.chanAt 0 k = s.chanAt 0 k) →
    (s.codec.bit = false → ∀ j < decodeLength s,
      u.chanAt (1 + j / s.codec.ch) (j % s.codec.ch) = s.chanAt (1 + j / s.codec.ch) (j % s.codec.ch)) →
    (s.codec.bit = true → ∀ j < decodeLength s, ∀ n < 8,
      (u.chanAt (1 + 3 * j + n / 3) (n % 3) = 255 ↔ s.chanAt (1 + 3 * j + n / 3) (n % 3) = 255)) →
    ∃ t, exec .decode s = .next t ∧ exec .decode u = .next { t with pix := m }

/-- 44_commands.md R177, the round trip: after a successful ENCODE, from any state with the same format
and image registers, the same pixels at logical indices 0 to NPIX(P) and between 1 + NPIX(P) and N of them
present (the upper bound: log 11), DECODE succeeds and gives back the payload, its length, the identifier
(or the sentinel) and the version/mode block. -/
def Obligations.EncodeThenDecodeRoundTrip : Prop :=
  ∀ s t u : State, EncodeRuns s → exec .encode s = .next t →
    u.codec = t.codec → u.structured = t.structured → u.par = t.par →
    u.regs.imgW = t.regs.imgW → u.regs.imgH = t.regs.imgH → u.regs.imgCh = t.regs.imgCh →
    (∀ i ≤ s.codec.npix s.paddedFrameLength, ∀ k < 4, u.chanAt i k = t.chanAt i k) →
    1 + s.codec.npix s.paddedFrameLength ≤ u.regs.imgAvail.toNat →
    u.regs.imgAvail.toNat ≤ u.numPixels →
    ∃ d, exec .decode u = .next d ∧ d.errCode = 0 ∧ d.regs.plen = s.regs.plen ∧
      d.regs.frameLen = t.regs.frameLen ∧ (∀ k < s.payloadLen, d.payByte k = s.payByte k) ∧
      (s.structured = true → d.regs.vb = s.regs.vb ∧
        (s.idEn = true → d.regs.id0 = s.regs.id0 ∧ d.regs.id1 = s.regs.id1 ∧
          d.regs.id2 = s.regs.id2 ∧ d.regs.id3 = s.regs.id3) ∧
        (s.idEn = false → d.status.idSent = true ∧ d.regs.id0 = 0xFFFFFFFF ∧
          d.regs.id1 = 0xFFFFFFFF ∧ d.regs.id2 = 0xFFFFFFFF ∧ d.regs.id3 = 0xFFFFFFFF))

/-! ## FILL and SRESET -/

/-- 44_commands.md R174: FILL gives channels 0 to CI−1 of every pixel of the image the bytes of FILL_COLOR,
sets IMG_AVAIL to N, and changes no other byte; without ImgOK it raises IllegalConfig. -/
def Obligations.FillResult : Prop :=
  ∀ s : State,
    (¬s.ImgOK → exec .fill s = .next (s.raise .illegalConfig)) ∧
    (s.ImgOK → ∃ t, exec .fill s = .next t ∧ t.regs.imgAvail.toNat = s.numPixels ∧
      (∀ x < s.width, ∀ y < s.height, ∀ k < s.imgChannels,
        t.pixByte (4 * (y * s.width + x) + k) = byteOf s.regs.fillColor k) ∧
      (∀ j, ∀ k < 4, (s.numPixels ≤ j ∨ s.imgChannels ≤ k) →
        t.pixByte (4 * j + k) = s.pixByte (4 * j + k)) ∧
      t.regs = { s.regs with imgAvail := t.regs.imgAvail } ∧ t.pay = s.pay ∧
      t.status = { s.status with error := none, done := true } ∧ t.busy = false)

/-- 44_commands.md R175: SRESET takes every register to its reset value, STATUS to 0, without setting DONE,
and leaves both memories as they were. -/
def Obligations.SresetResult : Prop :=
  ∀ s : State, ∃ t, exec .sreset s = .next t ∧ (∀ off, t.readReg off = 0) ∧ t.statusWord = 0 ∧
    t.busy = false ∧ t.status.done = false ∧ t.irq = false ∧ t.pix = s.pix ∧ t.pay = s.pay ∧
    t.par = s.par ∧ t.host = s.host ∧ t.sched = s.sched
end

