-- ==== Sys2Proof/Laws/Bits.lean ====
section
/-! SUPPORT. The laws of byte extraction and little-endian joining. -/

namespace Sys2Proof.Machine

@[simp] theorem bytesLE_length (n : Nat) (w : Word) : (bytesLE n w).length = n := by
  simp [bytesLE]

@[simp] theorem bytesLE_getElem (n k : Nat) (w : Word) (h : k < (bytesLE n w).length) :
    (bytesLE n w)[k] = byteOf w k := by
  simp [bytesLE]

theorem byteOf_getLsbD (w : Word) (k j : Nat) :
    (byteOf w k).getLsbD j = (decide (j < 8) && w.getLsbD (8 * k + j)) := by
  simp [byteOf, BitVec.getLsbD_extractLsb']

/-- Bit n of joined bytes is bit (n mod 8) of byte (n div 8). -/
theorem wordLE_getLsbD (bs : List Byte) (n : Nat) (h : n < 32) :
    (wordLE bs).getLsbD n = (bs.getD (n / 8) 0).getLsbD (n % 8) := by
  induction bs generalizing n with
  | nil => simp [wordLE]
  | cons b rest ih =>
    simp only [wordLE, BitVec.getLsbD_or, BitVec.getLsbD_shiftLeft, BitVec.getLsbD_setWidth]
    by_cases hn : n < 8
    · simp [hn, h, Nat.div_eq_of_lt hn, Nat.mod_eq_of_lt hn]
    · have h1 : n / 8 = (n - 8) / 8 + 1 := by omega
      have h2 : n % 8 = (n - 8) % 8 := by omega
      have hb : b.getLsbD n = false := BitVec.getLsbD_of_ge b n (by omega)
      rw [ih (n - 8) (by omega), h1, h2]
      simp [hn, h, hb]

/-- The bytes of joined bytes are those bytes. -/
theorem byteOf_wordLE (bs : List Byte) (k : Nat) (h : k < 4) : byteOf (wordLE bs) k = bs.getD k 0 := by
  apply BitVec.eq_of_getLsbD_eq
  intro j hj
  rw [byteOf_getLsbD, wordLE_getLsbD _ _ (by omega)]
  have h1 : (8 * k + j) / 8 = k := by omega
  have h2 : (8 * k + j) % 8 = j := by omega
  simp [h1, h2, hj]

/-- A word is its four bytes joined (20_memory.md R67). -/
@[simp] theorem wordLE_bytesLE (w : Word) : wordLE (bytesLE 4 w) = w := by
  apply BitVec.eq_of_getLsbD_eq
  intro j hj
  have h4 : j / 8 < 4 := by omega
  rw [wordLE_getLsbD _ _ hj, List.getD_eq_getElem _ _ (by simpa using h4), bytesLE_getElem,
    byteOf_getLsbD]
  have h1 : 8 * (j / 8) + j % 8 = j := by omega
  simp [h1, Nat.mod_lt]

/-- Four bytes joined and taken apart again. -/
theorem bytesLE_wordLE (bs : List Byte) (h : bs.length = 4) : bytesLE 4 (wordLE bs) = bs := by
  refine List.ext_getElem (by simp [h]) fun k h1 h2 => ?_
  rw [bytesLE_getElem, byteOf_wordLE _ _ (by omega), List.getD_eq_getElem _ _ h2]

end Sys2Proof.Machine
end

