-- ==== Sys2Proof/Laws/State.lean ====
section
/-! SUPPORT. One lemma for each field of State and each update, so that no proof unfolds an update. -/

namespace Sys2Proof.Machine

@[simp] theorem accept_par (v : Word) (s : State) : (s.accept v).par = s.par := rfl
@[simp] theorem accept_regs (v : Word) (s : State) : (s.accept v).regs = s.regs := rfl
@[simp] theorem accept_status (v : Word) (s : State) :
    (s.accept v).status = { s.status with done := false, error := none } := rfl
@[simp] theorem accept_eng (v : Word) (s : State) :
    (s.accept v).eng = { s.eng with phase := .busy, op := v } := rfl
@[simp] theorem accept_pix (v : Word) (s : State) : (s.accept v).pix = s.pix := rfl
@[simp] theorem accept_pay (v : Word) (s : State) : (s.accept v).pay = s.pay := rfl
@[simp] theorem accept_host (v : Word) (s : State) : (s.accept v).host = s.host := rfl
@[simp] theorem accept_sched (v : Word) (s : State) : (s.accept v).sched = s.sched := rfl
@[simp] theorem accept_waited (v : Word) (s : State) : (s.accept v).waited = 0 := rfl
@[simp] theorem accept_draws (v : Word) (s : State) : (s.accept v).draws = s.draws := rfl

@[simp] theorem complete_par (e : Option ErrorKind) (s : State) : (s.complete e).par = s.par := rfl
@[simp] theorem complete_regs (e : Option ErrorKind) (s : State) :
    (s.complete e).regs = s.regs := rfl
@[simp] theorem complete_status (e : Option ErrorKind) (s : State) :
    (s.complete e).status = { s.status with error := e, done := true } := rfl
@[simp] theorem complete_eng (e : Option ErrorKind) (s : State) :
    (s.complete e).eng = { s.eng with phase := .idle } := rfl
@[simp] theorem complete_pix (e : Option ErrorKind) (s : State) : (s.complete e).pix = s.pix := rfl
@[simp] theorem complete_pay (e : Option ErrorKind) (s : State) : (s.complete e).pay = s.pay := rfl
@[simp] theorem complete_host (e : Option ErrorKind) (s : State) :
    (s.complete e).host = s.host := rfl
@[simp] theorem complete_sched (e : Option ErrorKind) (s : State) :
    (s.complete e).sched = s.sched := rfl
@[simp] theorem complete_waited (e : Option ErrorKind) (s : State) :
    (s.complete e).waited = s.waited := rfl
@[simp] theorem complete_draws (e : Option ErrorKind) (s : State) :
    (s.complete e).draws = s.draws := rfl

@[simp] theorem raise_par (e : ErrorKind) (s : State) : (s.raise e).par = s.par := rfl
@[simp] theorem raise_regs (e : ErrorKind) (s : State) : (s.raise e).regs = s.regs := rfl
@[simp] theorem raise_status (e : ErrorKind) (s : State) :
    (s.raise e).status = { s.status with error := some e, done := true } := rfl
@[simp] theorem raise_eng (e : ErrorKind) (s : State) :
    (s.raise e).eng = { s.eng with phase := .idle } := rfl
@[simp] theorem raise_pix (e : ErrorKind) (s : State) : (s.raise e).pix = s.pix := rfl
@[simp] theorem raise_pay (e : ErrorKind) (s : State) : (s.raise e).pay = s.pay := rfl
@[simp] theorem raise_host (e : ErrorKind) (s : State) : (s.raise e).host = s.host := rfl
@[simp] theorem raise_sched (e : ErrorKind) (s : State) : (s.raise e).sched = s.sched := rfl
@[simp] theorem raise_waited (e : ErrorKind) (s : State) : (s.raise e).waited = s.waited := rfl
@[simp] theorem raise_draws (e : ErrorKind) (s : State) : (s.raise e).draws = s.draws := rfl

@[simp] theorem clearStatus_par (v : Word) (s : State) : (s.clearStatus v).par = s.par := rfl
@[simp] theorem clearStatus_regs (v : Word) (s : State) : (s.clearStatus v).regs = s.regs := rfl
@[simp] theorem clearStatus_status (v : Word) (s : State) :
    (s.clearStatus v).status = { s.status with
      done := s.status.done && !v.getLsbD 1, wign := s.status.wign && !v.getLsbD 3 } := rfl
@[simp] theorem clearStatus_eng (v : Word) (s : State) : (s.clearStatus v).eng = s.eng := rfl
@[simp] theorem clearStatus_pix (v : Word) (s : State) : (s.clearStatus v).pix = s.pix := rfl
@[simp] theorem clearStatus_pay (v : Word) (s : State) : (s.clearStatus v).pay = s.pay := rfl
@[simp] theorem clearStatus_host (v : Word) (s : State) : (s.clearStatus v).host = s.host := rfl
@[simp] theorem clearStatus_sched (v : Word) (s : State) : (s.clearStatus v).sched = s.sched := rfl
@[simp] theorem clearStatus_waited (v : Word) (s : State) :
    (s.clearStatus v).waited = s.waited := rfl
@[simp] theorem clearStatus_draws (v : Word) (s : State) : (s.clearStatus v).draws = s.draws := rfl

@[simp] theorem setWign_par (s : State) : (s.setWign).par = s.par := rfl
@[simp] theorem setWign_regs (s : State) : (s.setWign).regs = s.regs := rfl
@[simp] theorem setWign_status (s : State) :
    (s.setWign).status = { s.status with wign := true } := rfl
@[simp] theorem setWign_eng (s : State) : (s.setWign).eng = s.eng := rfl
@[simp] theorem setWign_pix (s : State) : (s.setWign).pix = s.pix := rfl
@[simp] theorem setWign_pay (s : State) : (s.setWign).pay = s.pay := rfl
@[simp] theorem setWign_host (s : State) : (s.setWign).host = s.host := rfl
@[simp] theorem setWign_sched (s : State) : (s.setWign).sched = s.sched := rfl
@[simp] theorem setWign_waited (s : State) : (s.setWign).waited = s.waited := rfl
@[simp] theorem setWign_draws (s : State) : (s.setWign).draws = s.draws := rfl

@[simp] theorem setRes_par (v : Nat) (s : State) : (s.setRes v).par = s.par := rfl
@[simp] theorem setRes_regs (v : Nat) (s : State) :
    (s.setRes v).regs = { s.regs with res := BitVec.ofNat 32 v } := rfl
@[simp] theorem setRes_status (v : Nat) (s : State) : (s.setRes v).status = s.status := rfl
@[simp] theorem setRes_eng (v : Nat) (s : State) : (s.setRes v).eng = s.eng := rfl
@[simp] theorem setRes_pix (v : Nat) (s : State) : (s.setRes v).pix = s.pix := rfl
@[simp] theorem setRes_pay (v : Nat) (s : State) : (s.setRes v).pay = s.pay := rfl
@[simp] theorem setRes_host (v : Nat) (s : State) : (s.setRes v).host = s.host := rfl
@[simp] theorem setRes_sched (v : Nat) (s : State) : (s.setRes v).sched = s.sched := rfl
@[simp] theorem setRes_waited (v : Nat) (s : State) : (s.setRes v).waited = s.waited := rfl
@[simp] theorem setRes_draws (v : Nat) (s : State) : (s.setRes v).draws = s.draws := rfl

@[simp] theorem resetRegisters_par (s : State) : (s.resetRegisters).par = s.par := rfl
@[simp] theorem resetRegisters_regs (s : State) : (s.resetRegisters).regs = Regs.reset := rfl
@[simp] theorem resetRegisters_status (s : State) : (s.resetRegisters).status = Status.reset := rfl
@[simp] theorem resetRegisters_eng (s : State) :
    (s.resetRegisters).eng = { s.eng with phase := .idle } := rfl
@[simp] theorem resetRegisters_pix (s : State) : (s.resetRegisters).pix = s.pix := rfl
@[simp] theorem resetRegisters_pay (s : State) : (s.resetRegisters).pay = s.pay := rfl
@[simp] theorem resetRegisters_host (s : State) : (s.resetRegisters).host = s.host := rfl
@[simp] theorem resetRegisters_sched (s : State) : (s.resetRegisters).sched = s.sched := rfl
@[simp] theorem resetRegisters_waited (s : State) : (s.resetRegisters).waited = s.waited := rfl
@[simp] theorem resetRegisters_draws (s : State) : (s.resetRegisters).draws = s.draws := rfl

@[simp] theorem spendTurn_par (s : State) : (spendTurn s).par = s.par := rfl
@[simp] theorem spendTurn_regs (s : State) : (spendTurn s).regs = s.regs := rfl
@[simp] theorem spendTurn_status (s : State) : (spendTurn s).status = s.status := rfl
@[simp] theorem spendTurn_eng (s : State) : (spendTurn s).eng = s.eng := rfl
@[simp] theorem spendTurn_pix (s : State) : (spendTurn s).pix = s.pix := rfl
@[simp] theorem spendTurn_pay (s : State) : (spendTurn s).pay = s.pay := rfl
@[simp] theorem spendTurn_host (s : State) : (spendTurn s).host = s.host := rfl
@[simp] theorem spendTurn_sched (s : State) : (spendTurn s).sched = s.sched.tail := rfl
@[simp] theorem spendTurn_waited (s : State) : (spendTurn s).waited = s.waited := rfl
@[simp] theorem spendTurn_draws (s : State) : (spendTurn s).draws = s.draws := rfl

@[simp] theorem placeCommand_par (s : State) (v : Word) : (placeCommand s v).par = s.par := rfl
@[simp] theorem placeCommand_regs (s : State) (v : Word) : (placeCommand s v).regs = s.regs := rfl
@[simp] theorem placeCommand_status (s : State) (v : Word) :
    (placeCommand s v).status = { s.status with done := false, error := none } := rfl
@[simp] theorem placeCommand_eng (s : State) (v : Word) :
    (placeCommand s v).eng = { s.eng with phase := .busy, op := v } := rfl
@[simp] theorem placeCommand_pix (s : State) (v : Word) : (placeCommand s v).pix = s.pix := rfl
@[simp] theorem placeCommand_pay (s : State) (v : Word) : (placeCommand s v).pay = s.pay := rfl
@[simp] theorem placeCommand_host (s : State) (v : Word) : (placeCommand s v).host = s.host := rfl
@[simp] theorem placeCommand_sched (s : State) (v : Word) : (placeCommand s v).sched = [] := rfl
@[simp] theorem placeCommand_waited (s : State) (v : Word) : (placeCommand s v).waited = 0 := rfl
@[simp] theorem placeCommand_draws (s : State) (v : Word) :
    (placeCommand s v).draws = s.draws := rfl

@[simp] theorem encodeEffect_par (s : State) : (encodeEffect s).par = s.par := rfl
@[simp] theorem encodeEffect_status (s : State) : (encodeEffect s).status = s.status := rfl
@[simp] theorem encodeEffect_pay (s : State) : (encodeEffect s).pay = s.pay := rfl
@[simp] theorem encodeEffect_host (s : State) : (encodeEffect s).host = s.host := rfl
@[simp] theorem encodeEffect_sched (s : State) : (encodeEffect s).sched = s.sched := rfl
@[simp] theorem encodeEffect_waited (s : State) : (encodeEffect s).waited = s.waited := rfl
@[simp] theorem encodeEffect_draws (s : State) : (encodeEffect s).draws = s.draws := rfl

@[simp] theorem decodeEffect_par (s : State) : (decodeEffect s).par = s.par := rfl
@[simp] theorem decodeEffect_pix (s : State) : (decodeEffect s).pix = s.pix := rfl
@[simp] theorem decodeEffect_host (s : State) : (decodeEffect s).host = s.host := rfl
@[simp] theorem decodeEffect_sched (s : State) : (decodeEffect s).sched = s.sched := rfl
@[simp] theorem decodeEffect_waited (s : State) : (decodeEffect s).waited = s.waited := rfl
@[simp] theorem decodeEffect_draws (s : State) : (decodeEffect s).draws = s.draws := rfl

@[simp] theorem fillEffect_par (s : State) : (fillEffect s).par = s.par := rfl
@[simp] theorem fillEffect_status (s : State) : (fillEffect s).status = s.status := rfl
@[simp] theorem fillEffect_pay (s : State) : (fillEffect s).pay = s.pay := rfl
@[simp] theorem fillEffect_host (s : State) : (fillEffect s).host = s.host := rfl
@[simp] theorem fillEffect_sched (s : State) : (fillEffect s).sched = s.sched := rfl
@[simp] theorem fillEffect_waited (s : State) : (fillEffect s).waited = s.waited := rfl
@[simp] theorem fillEffect_draws (s : State) : (fillEffect s).draws = s.draws := rfl

@[simp] theorem capacityEffect_par (s : State) : (capacityEffect s).par = s.par := rfl
@[simp] theorem capacityEffect_status (s : State) : (capacityEffect s).status = s.status := rfl
@[simp] theorem capacityEffect_eng (s : State) : (capacityEffect s).eng = s.eng := rfl
@[simp] theorem capacityEffect_pix (s : State) : (capacityEffect s).pix = s.pix := rfl
@[simp] theorem capacityEffect_pay (s : State) : (capacityEffect s).pay = s.pay := rfl
@[simp] theorem capacityEffect_host (s : State) : (capacityEffect s).host = s.host := rfl
@[simp] theorem capacityEffect_sched (s : State) : (capacityEffect s).sched = s.sched := rfl
@[simp] theorem capacityEffect_waited (s : State) : (capacityEffect s).waited = s.waited := rfl
@[simp] theorem capacityEffect_draws (s : State) : (capacityEffect s).draws = s.draws := rfl

@[simp] theorem encodeEffect_pix (s : State) :
    (encodeEffect s).pix = putPixels s.width s.pix 0 (encodePixels s) := rfl
@[simp] theorem encodeEffect_phase (s : State) : (encodeEffect s).eng.phase = s.eng.phase := rfl
@[simp] theorem encodeEffect_op (s : State) : (encodeEffect s).eng.op = s.eng.op := rfl
@[simp] theorem encodeEffect_ctrl (s : State) : (encodeEffect s).regs.ctrl = s.regs.ctrl := rfl

@[simp] theorem decodeEffect_pay (s : State) :
    (decodeEffect s).pay = Memory.writeBytes s.pay 0 ((decodeFrame s).drop s.fixedPart) := rfl
@[simp] theorem decodeEffect_status (s : State) : (decodeEffect s).status
    = { s.status with idSent := idSentOf s.structured (decodeFrame s) } := rfl
@[simp] theorem decodeEffect_phase (s : State) : (decodeEffect s).eng.phase = s.eng.phase := rfl
@[simp] theorem decodeEffect_op (s : State) : (decodeEffect s).eng.op = s.eng.op := rfl
@[simp] theorem decodeEffect_ctrl (s : State) : (decodeEffect s).regs.ctrl = s.regs.ctrl := by
  cases h : s.structured <;> simp [decodeEffect, h, Regs.takeBlocks]

@[simp] theorem fillEffect_pix (s : State) : (fillEffect s).pix = putPixels s.width s.pix 0
    (List.replicate s.numPixels (bytesLE s.imgChannels s.regs.fillColor)) := rfl
@[simp] theorem fillEffect_regs (s : State) : (fillEffect s).regs
    = { s.regs with imgAvail := BitVec.ofNat 32 s.numPixels } := rfl
@[simp] theorem fillEffect_phase (s : State) : (fillEffect s).eng.phase = s.eng.phase := rfl
@[simp] theorem fillEffect_op (s : State) : (fillEffect s).eng.op = s.eng.op := rfl

@[simp] theorem capacityEffect_regs (s : State) : (capacityEffect s).regs = { s.regs with
    capEnc := BitVec.ofNat 32 (s.codec.ecap s.numPixels)
    capDec := BitVec.ofNat 32 (s.codec.dcap s.numPixels) } := rfl

@[simp] theorem busy_accept (v : Word) (s : State) : (s.accept v).busy = true := rfl
@[simp] theorem busy_complete (e : Option ErrorKind) (s : State) : (s.complete e).busy = false := rfl
@[simp] theorem busy_raise (e : ErrorKind) (s : State) : (s.raise e).busy = false := rfl
@[simp] theorem busy_resetRegisters (s : State) : s.resetRegisters.busy = false := rfl
@[simp] theorem busy_spendTurn (s : State) : (spendTurn s).busy = s.busy := rfl
@[simp] theorem busy_setWign (s : State) : s.setWign.busy = s.busy := rfl
@[simp] theorem busy_clearStatus (v : Word) (s : State) : (s.clearStatus v).busy = s.busy := rfl
@[simp] theorem intEn_complete (e : Option ErrorKind) (s : State) :
    (s.complete e).intEn = s.intEn := rfl
@[simp] theorem errCode_complete_none (s : State) : (s.complete none).errCode = 0 := rfl
@[simp] theorem errCode_raise (e : ErrorKind) (s : State) : (s.raise e).errCode = e.code := rfl

end Sys2Proof.Machine
end

