-- ==== Sys2Proof/Laws/Ops.lean ====
section
/-! SUPPORT. What the shared operations, the commands, the bus accesses and the reset can do: one lemma
each, which proofs cite instead of unfolding them. -/

namespace Sys2Proof.Machine

/-! ## Commands -/

@[simp] theorem perform_some (e : ErrorKind) (f : State → State) (s : State) :
    s.perform (some e) f = s.raise e := rfl

@[simp] theorem perform_none (f : State → State) (s : State) :
    s.perform none f = (f s).complete none := rfl

/-- A command either raises the check that failed or completes its effect. -/
theorem perform_cases (c : Option ErrorKind) (f : State → State) (s : State) :
    (∃ e, c = some e ∧ s.perform c f = s.raise e) ∨
      (c = none ∧ s.perform c f = (f s).complete none) := by
  cases c with
  | none => exact .inr ⟨rfl, rfl⟩
  | some e => exact .inl ⟨e, rfl, rfl⟩

/-- Everything a command can do: raise one of its errors, complete its effect, or (SRESET) reset the
registers. -/
theorem exec_cases (i : Instr) (s t : State) (h : exec i s = .next t) :
    (∃ e, t = s.raise e ∧ ((i = .encode ∧ encodeCheck s = some e) ∨ (i = .decode ∧ decodeCheck s = some e) ∨
      (i = .fill ∧ fillCheck s = some e) ∨ (i = .addr ∧ addrCheck s = some e) ∨
      (i = .index ∧ indexCheck s = some e) ∨ (i = .capacity ∧ capacityCheck s = some e))) ∨
    (i = .encode ∧ encodeCheck s = none ∧ t = (encodeEffect s).complete none) ∨
    (i = .decode ∧ decodeCheck s = none ∧ t = (decodeEffect s).complete none) ∨
    (i = .fill ∧ fillCheck s = none ∧ t = (fillEffect s).complete none) ∨
    (i = .addr ∧ addrCheck s = none ∧ ∃ v, t = (s.setRes v).complete none) ∨
    (i = .index ∧ indexCheck s = none ∧ ∃ v, t = (s.setRes v).complete none) ∨
    (i = .capacity ∧ capacityCheck s = none ∧ t = (capacityEffect s).complete none) ∨
    (i = .sreset ∧ t = s.resetRegisters) := by
  cases i with
  | encode =>
    injection h with h
    rcases perform_cases (encodeCheck s) encodeEffect s with ⟨e, hc, hp⟩ | ⟨hc, hp⟩
    · exact .inl ⟨e, h ▸ hp, .inl ⟨rfl, hc⟩⟩
    · exact .inr (.inl ⟨rfl, hc, h ▸ hp⟩)
  | decode =>
    injection h with h
    rcases perform_cases (decodeCheck s) decodeEffect s with ⟨e, hc, hp⟩ | ⟨hc, hp⟩
    · exact .inl ⟨e, h ▸ hp, .inr (.inl ⟨rfl, hc⟩)⟩
    · exact .inr (.inr (.inl ⟨rfl, hc, h ▸ hp⟩))
  | fill =>
    injection h with h
    rcases perform_cases (fillCheck s) fillEffect s with ⟨e, hc, hp⟩ | ⟨hc, hp⟩
    · exact .inl ⟨e, h ▸ hp, .inr (.inr (.inl ⟨rfl, hc⟩))⟩
    · exact .inr (.inr (.inr (.inl ⟨rfl, hc, h ▸ hp⟩)))
  | addr =>
    injection h with h
    subst h
    rcases perform_cases (addrCheck s) (State.setRes _) s with ⟨e, hc, hp⟩ | ⟨hc, hp⟩
    · exact .inl ⟨e, hp, .inr (.inr (.inr (.inl ⟨rfl, hc⟩)))⟩
    · exact .inr (.inr (.inr (.inr (.inl ⟨rfl, hc, _, hp⟩))))
  | index =>
    injection h with h
    subst h
    rcases perform_cases (indexCheck s) (State.setRes _) s with ⟨e, hc, hp⟩ | ⟨hc, hp⟩
    · exact .inl ⟨e, hp, .inr (.inr (.inr (.inr (.inl ⟨rfl, hc⟩))))⟩
    · exact .inr (.inr (.inr (.inr (.inr (.inl ⟨rfl, hc, _, hp⟩)))))
  | capacity =>
    injection h with h
    rcases perform_cases (capacityCheck s) capacityEffect s with ⟨e, hc, hp⟩ | ⟨hc, hp⟩
    · exact .inl ⟨e, h ▸ hp, .inr (.inr (.inr (.inr (.inr ⟨rfl, hc⟩))))⟩
    · exact .inr (.inr (.inr (.inr (.inr (.inr (.inl ⟨rfl, hc, h ▸ hp⟩))))))
  | sreset =>
    injection h with h
    exact .inr (.inr (.inr (.inr (.inr (.inr (.inr ⟨rfl, h.symm⟩))))))

/-! ## Bus accesses -/

/-- Everything a bus read can do. -/
theorem busRead_cases (z : Size) (a : BusAddr) (s : State) :
    (okTarget s.par z a = none ∧ busRead z a s = (.error, s)) ∨
    (∃ t, okTarget s.par z a = some t ∧ s.busy = true ∧ t ≠ .reg 0x004 ∧
      busRead z a s = (.okayRead (Config.freeWord s.draws), { s with draws := s.draws + 1 })) ∨
    (∃ t, okTarget s.par z a = some t ∧ (s.busy = false ∨ t = .reg 0x004) ∧
      busRead z a s = (.okayRead (readTarget z s t), s)) := by
  cases h : okTarget s.par z a with
  | none => exact .inl ⟨rfl, by simp [busRead, h]⟩
  | some t =>
    by_cases hb : (s.busy && !isStatus t) = true
    · have hb' := hb
      simp only [isStatus, Bool.and_eq_true, Bool.not_eq_true', beq_eq_false_iff_ne] at hb'
      exact .inr (.inl ⟨t, rfl, hb'.1, hb'.2, by simp [busRead, h, hb]⟩)
    · have hb' := hb
      simp only [isStatus, Bool.and_eq_true, Bool.not_eq_true', beq_eq_false_iff_ne, not_and,
        not_not] at hb'
      refine .inr (.inr ⟨t, rfl, ?_, by simp [busRead, h, hb]⟩)
      cases hs : s.busy
      · exact .inl rfl
      · exact .inr (hb' hs)

/-- Everything a bus write can do. -/
theorem busWrite_cases (z : Size) (a : BusAddr) (v : Word) (s : State) :
    (okTarget s.par z a = none ∧ busWrite z a v s = (.error, s)) ∨
    (∃ t, okTarget s.par z a = some t ∧ s.busy = true ∧ busWrite z a v s = (.okayWrite, s.setWign)) ∨
    (∃ t, okTarget s.par z a = some t ∧ s.busy = false ∧
      busWrite z a v s = (.okayWrite, writeTarget z v s t)) := by
  cases h : okTarget s.par z a with
  | none => exact .inl ⟨rfl, by simp [busWrite, h]⟩
  | some t =>
    cases hb : s.busy
    · exact .inr (.inr ⟨t, rfl, rfl, by simp [busWrite, h, hb]⟩)
    · exact .inr (.inl ⟨t, rfl, rfl, by simp [busWrite, h, hb]⟩)

/-- A bus read neither reads nor writes what the host holds. -/
theorem busRead_host (z : Size) (a : BusAddr) (s : State) (h : HostSide) :
    busRead z a { s with host := h } = ((busRead z a s).1, { (busRead z a s).2 with host := h }) := by
  simp only [busRead]
  cases okTarget s.par z a with
  | none => rfl
  | some t =>
    have hr : readTarget z { s with host := h } t = readTarget z s t := by cases t <;> rfl
    have hb : ({ s with host := h } : State).busy = s.busy := rfl
    simp only [hr, hb]
    split <;> rfl

/-- A bus write neither reads nor writes what the host holds. -/
theorem busWrite_host (z : Size) (a : BusAddr) (v : Word) (s : State) (h : HostSide) :
    busWrite z a v { s with host := h } = ((busWrite z a v s).1, { (busWrite z a v s).2 with host := h }) := by
  simp only [busWrite]
  cases okTarget s.par z a with
  | none => rfl
  | some t =>
    have hb : ({ s with host := h } : State).busy = s.busy := rfl
    have hw : writeTarget z v { s with host := h } t = { writeTarget z v s t with host := h } := by
      cases t with
      | reg off =>
        simp only [writeTarget, State.writeReg]
        split <;> rfl
      | _ => rfl
    simp only [hb, hw]
    split <;> rfl

/-- Where an OKAY access can go: a 4-aligned register, or bytes inside a memory's depth. -/
theorem okTarget_cases (par : Config.Params) (z : Size) (a : BusAddr) (t : Target)
    (h : okTarget par z a = some t) :
    a.toNat % z.bytes = 0 ∧
    ((t = .reg a.toNat ∧ z = .word ∧ a.toNat < 0x100) ∨
     (t = .pay (a.toNat - 0x100000) ∧ 0x100000 ≤ a.toNat ∧ a.toNat < 0x200000 ∧
       a.toNat - 0x100000 + z.bytes ≤ par.payDepth) ∨
     (t = .pix (a.toNat - 0x800000) ∧ 0x800000 ≤ a.toNat ∧
       a.toNat - 0x800000 + z.bytes ≤ 4 * par.pixDepth)) := by
  simp only [okTarget, legalAccess, Option.ite_none_right_eq_some, Bool.and_eq_true, beq_iff_eq,
    Option.some.injEq] at h
  obtain ⟨⟨hal, hl⟩, rfl⟩ := h
  refine ⟨hal, ?_⟩
  unfold busTarget at hl ⊢
  dsimp only at hl ⊢
  split_ifs at hl ⊢ with h1 h2 h3 h4 h5
  · exact .inl ⟨rfl, by simpa using hl, h1⟩
  · exact .inr (.inl ⟨rfl, h2.1, h2.2, h3⟩)
  · exact .inr (.inr ⟨rfl, h4, h5⟩)

/-- What a write to a register while IDLE can do: clear STATUS bits, start a command, or write the register
file. -/
theorem writeReg_cases (s : State) (off : Nat) (v : Word) :
    s.writeReg off v = s.clearStatus v ∨ s.writeReg off v = s.accept v ∨
      s.writeReg off v = { s with regs := s.regs.write off v } := by
  unfold State.writeReg
  split
  · exact .inl rfl
  · exact .inr (.inl rfl)
  · exact .inr (.inr rfl)

/-! ## The host's names -/

@[simp] theorem value_setVar_same (h : HostSide) (r : Nat) (v : Word) : (h.setVar r v).value r = v := by
  simp [HostSide.value, HostSide.setVar]

/-- Loading a name leaves every other name alone. -/
theorem value_setVar_other (h : HostSide) (r q : Nat) (v : Word) (hq : q ≠ r) :
    (h.setVar r v).value q = h.value q := by
  have hf : (h.vars.filter (fun p => p.1 != r)).find? (fun p => p.1 == q)
      = h.vars.find? (fun p => p.1 == q) := by
    rw [List.find?_filter]
    congr 1
    funext p
    by_cases hp : p.1 = q
    · simp [hp, hq]
    · simp [hp]
  simp only [HostSide.value, HostSide.setVar]
  rw [List.find?_cons_of_neg (by simpa using Ne.symm hq), hf]

/-! ## Turns -/

/-- A host turn is, up to what the host itself holds and the count of BUSY turns, one bus access or
nothing. -/
theorem hostTurn_cases (s : State) :
    ∃ (h : HostSide) (n : Nat), n = (if s.busy then s.waited + 1 else s.waited) ∧
      (hostTurn s = { s with host := h, waited := n } ∨
       (∃ z a v hs, hostTurn s = { (busWrite z a v { s with host := hs, waited := n }).2 with host := h }) ∨
       (∃ z a hs, hostTurn s = { (busRead z a { s with host := hs, waited := n }).2 with host := h })) := by
  unfold hostTurn
  generalize hn : (if s.busy then s.waited + 1 else s.waited) = n
  have hs1 : (if s.busy then { s with waited := s.waited + 1 } else s) = { s with waited := n } := by
    subst hn
    split <;> rfl
  rw [hs1]
  cases hp : s.host.prog with
  | nil => exact ⟨s.host, n, rfl, .inl rfl⟩
  | cons op rest =>
    cases op with
    | sw a v => exact ⟨_, n, rfl, .inr (.inl ⟨.word, a, v, _, rfl⟩)⟩
    | sh a v => exact ⟨_, n, rfl, .inr (.inl ⟨.half, a, v.setWidth 32, _, rfl⟩)⟩
    | sb a v => exact ⟨_, n, rfl, .inr (.inl ⟨.byte, a, v.setWidth 32, _, rfl⟩)⟩
    | lw r a => exact ⟨_, n, rfl, .inr (.inr ⟨.word, a, _, rfl⟩)⟩
    | lh r a => exact ⟨_, n, rfl, .inr (.inr ⟨.half, a, _, rfl⟩)⟩
    | lb r a => exact ⟨_, n, rfl, .inr (.inr ⟨.byte, a, _, rfl⟩)⟩
    | wait r =>
      simp only [hostOp]
      split
      · exact ⟨_, n, rfl, .inr (.inr ⟨.word, statusAddr, _, rfl⟩)⟩
      · exact ⟨_, n, rfl, .inr (.inr ⟨.word, statusAddr, _, rfl⟩)⟩

/-- What abandoning a command can do to the memories: nothing, fresh pixels, or fresh payload bytes. -/
theorem abandon_cases (s : State) :
    (writeSet s = .nothing ∧ s.abandon = s) ∨
    (∃ n, writeSet s = .pixels n ∧ s.abandon =
      { s with
        pix := putPixels s.width s.pix 0 (freshPixels s.imgChannels s.draws n)
        draws := s.draws + n }) ∨
    (∃ n, writeSet s = .payload n ∧ s.abandon =
      { s with pay := Memory.writeBytes s.pay 0 (freshBytes s.draws n), draws := s.draws + n }) := by
  unfold State.abandon
  cases h : writeSet s with
  | nothing => exact .inl ⟨rfl, rfl⟩
  | pixels n => exact .inr (.inl ⟨n, rfl, rfl⟩)
  | payload n => exact .inr (.inr ⟨n, rfl, rfl⟩)

@[simp] theorem freshPixels_length (c d n : Nat) : (freshPixels c d n).length = n := by simp [freshPixels]

@[simp] theorem freshPixels_getElem (c d n k : Nat) (hk : k < (freshPixels c d n).length) :
    (freshPixels c d n)[k] = bytesLE c (Config.freeWord (d + k)) := by simp [freshPixels]

@[simp] theorem freshBytes_length (d n : Nat) : (freshBytes d n).length = n := by simp [freshBytes]

/-- Where the command the engine holds could have written no memory, `rst` keeps the memories and the
counter of draws. -/
theorem hardReset_of_nothing (s : State) (h : writeSet s = .nothing) :
    hardReset s = { s with regs := Regs.reset, status := Status.reset, eng := Engine.reset, waited := 0 } := by
  unfold hardReset State.abandon
  rw [h]
  simp only [ite_self]

@[simp] theorem hardReset_regs (s : State) : (hardReset s).regs = Regs.reset := rfl
@[simp] theorem hardReset_status (s : State) : (hardReset s).status = Status.reset := rfl
@[simp] theorem hardReset_eng (s : State) : (hardReset s).eng = Engine.reset := rfl
@[simp] theorem hardReset_waited (s : State) : (hardReset s).waited = 0 := rfl
@[simp] theorem hardReset_busy (s : State) : (hardReset s).busy = false := rfl

/-- Everything a step can do: the engine performs its command, an illegal word completes, the engine or the
host idles, the host makes an access, or `rst` acts. -/
theorem step_cases (s t : State) (h : step s = .next t) :
    (nextTurn s = .engine ∧ s.busy = true ∧ ∃ i, decode s.eng.op = .ok i ∧ exec i (spendTurn s) = .next t) ∨
    (nextTurn s = .engine ∧ s.busy = true ∧ (∃ r, decode s.eng.op = .error r) ∧
      t = illegalCommand (spendTurn s)) ∨
    (nextTurn s = .engine ∧ s.busy = false ∧ t = spendTurn s) ∨
    (nextTurn s = .host ∧ t = hostTurn (spendTurn s)) ∨
    (nextTurn s = .rst ∧ t = hardReset (spendTurn s)) := by
  unfold step takeTurn at h
  cases hn : nextTurn s with
  | engine =>
    simp only [hn, engineTurn, busy_spendTurn, fetchWord, spendTurn_eng] at h
    cases hb : s.busy
    · simp only [hb, Bool.false_eq_true, if_false, Host.Outcome.next.injEq] at h
      exact .inr (.inr (.inl ⟨rfl, rfl, h.symm⟩))
    · simp only [hb, if_true] at h
      cases hd : decode s.eng.op with
      | ok i => exact .inl ⟨rfl, rfl, i, rfl, by simpa [hd] using h⟩
      | error r =>
        simp only [hd, Host.Outcome.next.injEq] at h
        exact .inr (.inl ⟨rfl, rfl, ⟨r, rfl⟩, h.symm⟩)
  | host =>
    simp only [hn, Host.Outcome.next.injEq] at h
    exact .inr (.inr (.inr (.inl ⟨rfl, h.symm⟩)))
  | rst =>
    simp only [hn, Host.Outcome.next.injEq] at h
    exact .inr (.inr (.inr (.inr ⟨rfl, h.symm⟩)))

end Sys2Proof.Machine
end

