-- ==== Sys2Proof/Laws/Memory.lean ====
section
/-! SUPPORT. The laws of the byte memories: read after write, writes elsewhere, the canonical form. -/

namespace Sys2Proof.Machine

open Sys2Proof.Config (Space)

@[simp] theorem find_write_same (m : Memory) (a : Nat) (v : Byte) :
    Memory.find (Memory.write m a v) a = some v := by
  induction m with
  | nil => simp [Memory.write, Memory.find]
  | cons p rest ih =>
    simp only [Memory.write]
    split
    · simp [Memory.find]
    · split
      · simp [Memory.find]
      · simp_all [Memory.find]

theorem find_write_other (m : Memory) (a c : Nat) (v : Byte) (h : c ≠ a) :
    Memory.find (Memory.write m a v) c = Memory.find m c := by
  induction m with
  | nil => simp [Memory.write, Memory.find, h]
  | cons p rest ih =>
    simp only [Memory.write]
    split
    · simp [Memory.find, h]
    · split
      · rename_i hb
        subst hb
        simp [Memory.find, h]
      · simp [Memory.find, ih]

/-- A read after a write to the same offset gives the byte written (20_memory.md R66). -/
@[simp] theorem read_write_same (sp : Space) (m : Memory) (a : Nat) (v : Byte) :
    Memory.read sp (Memory.write m a v) a = v := by
  simp [Memory.read]

/-- A write leaves every other offset alone. -/
theorem read_write_other (sp : Space) (m : Memory) (a c : Nat) (v : Byte) (h : c ≠ a) :
    Memory.read sp (Memory.write m a v) c = Memory.read sp m c := by
  simp [Memory.read, find_write_other m a c v h]

/-- A run of bytes leaves every offset outside it alone. -/
theorem read_writeBytes_outside (sp : Space) (vs : List Byte) (m : Memory) (a c : Nat)
    (h : c < a ∨ a + vs.length ≤ c) :
    Memory.read sp (Memory.writeBytes m a vs) c = Memory.read sp m c := by
  induction vs generalizing m a with
  | nil => rfl
  | cons v rest ih =>
    simp only [List.length_cons] at h
    rw [Memory.writeBytes, ih _ _ (by omega), read_write_other _ _ _ _ _ (by omega)]

/-- A run of bytes reads back, byte by byte. -/
theorem read_writeBytes_inside (sp : Space) (vs : List Byte) (m : Memory) (a k : Nat)
    (h : k < vs.length) :
    Memory.read sp (Memory.writeBytes m a vs) (a + k) = vs[k] := by
  induction vs generalizing m a k with
  | nil => simp at h
  | cons v rest ih =>
    rw [Memory.writeBytes]
    cases k with
    | zero => simp [read_writeBytes_outside sp rest _ (a + 1) a (by omega)]
    | succ k =>
      have := ih (Memory.write m a v) (a + 1) k (by simpa using h)
      simpa [Nat.add_comm, Nat.add_left_comm] using this

@[simp] theorem readBytes_length (sp : Space) (m : Memory) (a n : Nat) :
    (Memory.readBytes sp m a n).length = n := by
  simp [Memory.readBytes]

theorem readBytes_getElem (sp : Space) (m : Memory) (a n k : Nat)
    (h : k < (Memory.readBytes sp m a n).length) :
    (Memory.readBytes sp m a n)[k] = Memory.read sp m (a + k) := by
  simp [Memory.readBytes]

/-- Two memories that read alike at a run of offsets give the same run. -/
theorem readBytes_congr (sp : Space) (m m' : Memory) (a n : Nat)
    (h : ∀ k < n, Memory.read sp m (a + k) = Memory.read sp m' (a + k)) :
    Memory.readBytes sp m a n = Memory.readBytes sp m' a n := by
  simp only [Memory.readBytes]
  exact List.map_congr_left fun k hk => h k (List.mem_range.mp hk)

/-- Every offset a written memory lists was listed before or is the one written. -/
theorem mem_write (m : Memory) (a : Nat) (v : Byte) (p : Host.Cell) (h : p ∈ Memory.write m a v) :
    p = (a, v) ∨ p ∈ m := by
  induction m with
  | nil => simpa [Memory.write] using h
  | cons q rest ih =>
    simp only [Memory.write] at h
    split at h
    · simpa using h
    · split at h
      · rcases List.mem_cons.mp h with h | h
        · exact .inl h
        · exact .inr (List.mem_cons_of_mem _ h)
      · rcases List.mem_cons.mp h with h | h
        · exact .inr (h ▸ List.mem_cons_self)
        · exact (ih h).imp_right (List.mem_cons_of_mem _)

/-- A write inside the bound keeps the canonical form. -/
theorem wf_write (bound : Nat) (m : Memory) (a : Nat) (v : Byte) (hm : Memory.wf bound m)
    (ha : a < bound) : Memory.wf bound (Memory.write m a v) := by
  refine ⟨?_, fun p hp => ?_⟩
  · obtain ⟨hs, -⟩ := hm
    induction m with
    | nil => simp [Memory.write]
    | cons q rest ih =>
      have hq := List.pairwise_cons.mp hs
      simp only [Memory.write]
      split
      · rename_i hlt
        refine List.pairwise_cons.mpr ⟨fun p hp => ?_, hs⟩
        rcases List.mem_cons.mp hp with rfl | hp
        · exact hlt
        · exact lt_trans hlt (hq.1 p hp)
      · split
        · rename_i heq
          subst heq
          exact List.pairwise_cons.mpr ⟨hq.1, hq.2⟩
        · refine List.pairwise_cons.mpr ⟨fun p hp => ?_, ih hq.2⟩
          rcases mem_write rest a v p hp with rfl | hp
          · change q.1 < a
            omega
          · exact hq.1 p hp
  · rcases mem_write m a v p hp with rfl | hp
    · exact ha
    · exact hm.2 p hp

/-- A run of bytes inside the bound keeps the canonical form. -/
theorem wf_writeBytes (bound : Nat) (vs : List Byte) (m : Memory) (a : Nat) (hm : Memory.wf bound m)
    (ha : a + vs.length ≤ bound) : Memory.wf bound (Memory.writeBytes m a vs) := by
  induction vs generalizing m a with
  | nil => exact hm
  | cons v rest ih =>
    simp only [List.length_cons] at ha
    exact ih _ _ (wf_write bound m a v hm (by omega)) (by omega)

end Sys2Proof.Machine
end

