-- ==== Sys2Proof/Laws/Pixels.lean ====
section
/-! SUPPORT. The laws of the scan order and of a run of pixels written in it. -/

namespace Sys2Proof.Machine

/-- The pixel word of logical index i (20_memory.md R64, 40_scan_order.md R110). -/
def wordAt (w i : Nat) : Nat := (address w i).2 * w + (address w i).1

/-- The offset in PIXMEM of channel 0 of the pixel at logical index i. -/
def baseAt (w i : Nat) : Nat := pixelBase w (address w i).1 (address w i).2

theorem baseAt_eq (w i : Nat) : baseAt w i = 4 * wordAt w i := rfl

theorem wordAt_eq (w i : Nat) : wordAt w i = w * (i / w) + (w - 1 - i % w) := by
  rw [wordAt, Nat.mul_comm]
  rfl

/-- Pixels of an image of w·h pixels occupy words 0 to w·h − 1 (20_memory.md R62). -/
theorem wordAt_lt (w h i : Nat) (hi : i < w * h) : wordAt w i < w * h := by
  have hw : 0 < w := Nat.pos_of_ne_zero fun h0 => by simp [h0] at hi
  have hd : i / w < h := Nat.div_lt_of_lt_mul hi
  have hm : i % w < w := Nat.mod_lt _ hw
  rw [wordAt_eq]
  calc w * (i / w) + (w - 1 - i % w) < w * (i / w) + w := by omega
    _ = w * (i / w + 1) := by ring
    _ ≤ w * h := Nat.mul_le_mul_left w hd

/-- Different logical indices are different words. -/
theorem wordAt_inj (w i j : Nat) (hw : 0 < w) (h : wordAt w i = wordAt w j) : i = j := by
  rw [wordAt_eq, wordAt_eq] at h
  have hi : i % w < w := Nat.mod_lt _ hw
  have hj : j % w < w := Nat.mod_lt _ hw
  have hdiv : i / w = j / w := by
    have h1 : (w * (i / w) + (w - 1 - i % w)) / w = i / w := by
      rw [Nat.mul_add_div hw, Nat.div_eq_of_lt (show w - 1 - i % w < w by omega), Nat.add_zero]
    have h2 : (w * (j / w) + (w - 1 - j % w)) / w = j / w := by
      rw [Nat.mul_add_div hw, Nat.div_eq_of_lt (show w - 1 - j % w < w by omega), Nat.add_zero]
    rw [← h1, ← h2, h]
  rw [hdiv] at h
  have hmod : i % w = j % w := by omega
  rw [← Nat.div_add_mod i w, ← Nat.div_add_mod j w, hdiv, hmod]

/-- A run of pixels leaves alone every byte that is no written channel of one of them. -/
theorem read_putPixels_outside (w : Nat) (gs : List (List Byte)) (m : Memory) (i c : Nat)
    (h : ∀ n (hn : n < gs.length), c < baseAt w (i + n) ∨ baseAt w (i + n) + gs[n].length ≤ c) :
    Memory.read .pix (putPixels w m i gs) c = Memory.read .pix m c := by
  induction gs generalizing m i with
  | nil => rfl
  | cons g rest ih =>
    rw [putPixels, ih]
    · have h0 := h 0 (by simp)
      simp only [Nat.add_zero, List.getElem_cons_zero] at h0
      exact read_writeBytes_outside _ _ _ _ _ h0
    · intro n hn
      have h1 := h (n + 1) (by simpa using hn)
      simpa [Nat.add_comm, Nat.add_left_comm] using h1

/-- A run of pixels reads back, channel by channel. -/
theorem read_putPixels_inside (w : Nat) (gs : List (List Byte)) (m : Memory) (i n k : Nat)
    (hw : 0 < w) (hlen : ∀ g ∈ gs, g.length ≤ 4) (hn : n < gs.length) (hk : k < gs[n].length) :
    Memory.read .pix (putPixels w m i gs) (baseAt w (i + n) + k) = gs[n][k] := by
  induction gs generalizing m i n with
  | nil => simp at hn
  | cons g rest ih =>
    have hrest : ∀ g ∈ rest, g.length ≤ 4 := fun g' hg => hlen g' (List.mem_cons_of_mem _ hg)
    rw [putPixels]
    cases n with
    | zero =>
      simp only [List.getElem_cons_zero, Nat.add_zero] at hk ⊢
      rw [read_putPixels_outside]
      · exact read_writeBytes_inside _ _ _ _ _ hk
      · intro n hn'
        have hg : g.length ≤ 4 := hlen g List.mem_cons_self
        have hr : rest[n].length ≤ 4 := hrest _ (List.getElem_mem hn')
        have hne : wordAt w i ≠ wordAt w (i + 1 + n) := fun h0 => by
          have := wordAt_inj w _ _ hw h0
          omega
        simp only [baseAt_eq]
        omega
    | succ n =>
      have hn' : n < rest.length := by simpa using hn
      have := ih (pixWrite w m (address w i).1 (address w i).2 g) (i + 1) n hrest hn'
        (by simpa using hk)
      simpa [Nat.add_comm, Nat.add_left_comm] using this

/-- A run of pixels inside the bound keeps the canonical form. -/
theorem wf_putPixels (bound w : Nat) (gs : List (List Byte)) (m : Memory) (i : Nat)
    (hm : Memory.wf bound m)
    (h : ∀ n (hn : n < gs.length), baseAt w (i + n) + gs[n].length ≤ bound) :
    Memory.wf bound (putPixels w m i gs) := by
  induction gs generalizing m i with
  | nil => exact hm
  | cons g rest ih =>
    rw [putPixels]
    have h0 : baseAt w i + g.length ≤ bound := h 0 (by simp)
    refine ih _ _ (wf_writeBytes _ _ _ _ hm h0) fun n hn => ?_
    have h1 := h (n + 1) (by simpa using hn)
    simpa [Nat.add_comm, Nat.add_left_comm] using h1

/-- Channel k of the pixel at logical index i is the byte at offset `baseAt w i + k`. -/
theorem pixReadAt_chan (w : Nat) (m : Memory) (i k : Nat) (hk : k < 4) :
    (pixReadAt w m i).chan k = Memory.read .pix m (baseAt w i + k) := by
  have : k = 0 ∨ k = 1 ∨ k = 2 ∨ k = 3 := by omega
  rcases this with rfl | rfl | rfl | rfl <;> rfl

/-- Two memories that read alike at a pixel give the same pixel. -/
theorem pixReadAt_congr (w : Nat) (m m' : Memory) (i : Nat)
    (h : ∀ k < 4, Memory.read .pix m (baseAt w i + k) = Memory.read .pix m' (baseAt w i + k)) :
    pixReadAt w m i = pixReadAt w m' i := by
  have h0 := h 0 (by omega)
  have h1 := h 1 (by omega)
  have h2 := h 2 (by omega)
  have h3 := h 3 (by omega)
  simp only [baseAt, Nat.add_zero] at h0 h1 h2 h3
  simp [pixReadAt, pixRead, h0, h1, h2, h3]

end Sys2Proof.Machine
end

