-- ==== Sys2Proof/Laws/Packer.lean ====
section
/-! SUPPORT. The laws of padding, packing and the header: lengths, and which byte lies where. -/

namespace Sys2Proof.Machine

/-! ## Padding -/

/-- The padded length is a multiple of C. -/
theorem paddedLen_eq (l c : Nat) (hc : 0 < c) : paddedLen l c = c * ceilDiv l c := by
  have h : l ≤ c * ceilDiv l c := by
    have h1 := Nat.div_add_mod (l + c - 1) c
    have h2 := Nat.mod_lt (l + c - 1) hc
    unfold ceilDiv
    omega
  unfold paddedLen padLen
  omega

theorem le_paddedLen (l c : Nat) : l ≤ paddedLen l c := Nat.le_add_right _ _

@[simp] theorem padded_length (c : Nat) (fr : List Byte) :
    (padded c fr).length = paddedLen fr.length c := by
  simp [padded, paddedLen]

/-- Padding does not move the frame's own bytes. -/
theorem padded_getElem (c : Nat) (fr : List Byte) (j : Nat) (hj : j < fr.length)
    (h : j < (padded c fr).length) : (padded c fr)[j] = fr[j] := by
  simp [padded, List.getElem_append_left, hj]

/-! ## The pixels a frame is packed into -/

@[simp] theorem bitModePack_length (pf : List Byte) : (bitModePack pf).length = 3 * pf.length := by
  induction pf with
  | nil => rfl
  | cons b rest ih =>
    simp [bitModePack, bitSplit, ih]
    omega

/-- In bit mode, pixel 3j + t of the data carries part t of byte j (42_packer.md R136, R137). -/
theorem bitModePack_getElem (pf : List Byte) (j t : Nat) (ht : t < 3) (hj : j < pf.length)
    (h : 3 * j + t < (bitModePack pf).length) :
    (bitModePack pf)[3 * j + t] = (bitSplit pf[j])[t]'(by simpa [bitSplit] using ht) := by
  induction pf generalizing j with
  | nil => simp at hj
  | cons b rest ih =>
    cases j with
    | zero =>
      simp only [bitModePack, Nat.mul_zero, Nat.zero_add, List.getElem_cons_zero]
      rw [List.getElem_append_left]
    | succ j =>
      have hj' : j < rest.length := by simpa using hj
      have hlen : (bitSplit b).length = 3 := rfl
      simp only [bitModePack, List.getElem_cons_succ]
      rw [List.getElem_append_right (by rw [hlen]; omega)]
      have hidx : 3 * (j + 1) + t - (bitSplit b).length = 3 * j + t := by
        rw [hlen]
        omega
      simp only [hidx]
      exact ih j hj' _

@[simp] theorem byteModePack_length (c : Nat) (pf : List Byte) :
    (byteModePack c pf).length = pf.length / c := by
  simp [byteModePack]

/-- Packing a padded frame gives NPIX(P) pixels (40_scan_order.md R113). -/
@[simp] theorem pack_length (k : Codec) (pf : List Byte) :
    (k.pack pf).length = k.npix pf.length := by
  cases hb : k.bit <;> simp [Codec.pack, Codec.npix, hb]

theorem byteModePack_row_length (c : Nat) (pf : List Byte) (g : List Byte)
    (hg : g ∈ byteModePack c pf) : g.length = c := by
  simp only [byteModePack, List.mem_map] at hg
  obtain ⟨n, -, rfl⟩ := hg
  simp

theorem bitModePack_row_length (pf : List Byte) (g : List Byte) (hg : g ∈ bitModePack pf) :
    g.length = 3 := by
  induction pf with
  | nil => simp [bitModePack] at hg
  | cons b rest ih =>
    simp only [bitModePack, List.mem_append] at hg
    rcases hg with hg | hg
    · simp only [bitSplit, List.mem_cons, List.not_mem_nil, or_false] at hg
      rcases hg with rfl | rfl | rfl <;> rfl
    · exact ih hg

/-- Every pixel of a packed frame has C channels: "fully populated" (42_packer.md R133). -/
theorem pack_row_length (k : Codec) (hk : k.OK) (pf : List Byte) (g : List Byte)
    (hg : g ∈ k.pack pf) : g.length = k.ch := by
  cases hb : k.bit
  · simp only [Codec.pack, hb] at hg
    exact byteModePack_row_length _ _ _ (by simpa using hg)
  · simp only [Codec.pack, hb, if_true] at hg
    rw [bitModePack_row_length _ _ hg]
    obtain ⟨h1, h2⟩ := hk
    have : k.ch ≠ 4 := fun h => h2 ⟨hb, h⟩
    omega

theorem hdrPack_length (l c : Nat) (hc : c = 3 ∨ c = 4) : (hdrPack l c).length = c := by
  rcases hc with rfl | rfl <;> rfl

/-! ## Unpacking -/

@[simp] theorem unpack_length (k : Codec) (w : Nat) (m : Memory) (l : Nat) :
    (k.unpack w m l).length = l := by
  cases hb : k.bit <;> simp [Codec.unpack, hb, byteModeUnpack, bitModeUnpack]

/-- A channel reads as the bit it was written for (42_packer.md R135, R138). -/
@[simp] theorem bitOf_bitState (b : Byte) (k : Nat) : bitOf (bitState b k) = (b.getLsbD k).toNat := by
  cases h : b.getLsbD k <;> simp [bitState, bitOf, h, onByte, offByte]

end Sys2Proof.Machine
end

