-- ==== Sys2Proof/Laws/Codec.lean ====
section
/-! SUPPORT. The laws of the pixels ENCODE writes, of the bit-mode threshold, and of the numbers' bounds. -/

namespace Sys2Proof.Machine

theorem width_lt (s : State) : s.width < 65536 := s.regs.imgW.isLt

theorem height_lt (s : State) : s.height < 65536 := s.regs.imgH.isLt

/-- N fits in a register (30_encoding.md R93). -/
theorem numPixels_lt (s : State) : s.numPixels < 2 ^ 32 := by
  have := Nat.mul_le_mul (Nat.le_of_lt_succ (width_lt s)) (Nat.le_of_lt_succ (height_lt s))
  unfold State.numPixels
  omega

/-- A header value fits in a register. -/
theorem hdrParse_lt (p : Pixel) (c : Nat) : hdrParse p c < 2 ^ 32 := by
  have := p.c0.isLt
  have := p.c1.isLt
  have := p.c2.isLt
  have := p.c3.isLt
  unfold hdrParse
  dsimp only
  split <;> omega

/-- The frame has the length ENCODE records (43_frame.md R151). -/
theorem length_frameBytes (s : State) : s.frameBytes.length = s.frameLength := by
  have hid : s.idBlock.length = 16 := by
    unfold State.idBlock
    split <;> simp [Regs.idBytes, sentinelId, idLen]
  simp only [State.frameBytes, State.frameLength, State.fixedPart]
  split <;> simp [hid, State.payBytes, fStruct, idLen, vbLen]
  omega

/-- Every pixel ENCODE writes has C channels. -/
theorem encodePixels_row (s : State) (hk : s.codec.OK) (g : List Byte) (hg : g ∈ encodePixels s) :
    g.length = s.codec.ch := by
  simp only [encodePixels, List.mem_cons] at hg
  rcases hg with rfl | hg
  · exact hdrPack_length _ _ hk.1
  · exact pack_row_length _ hk _ _ hg

/-- ENCODE writes the header pixel and NPIX(P) data pixels. -/
theorem encodePixels_length (s : State) :
    (encodePixels s).length = 1 + s.codec.npix s.paddedFrameLength := by
  simp [encodePixels, State.paddedFrameLength, length_frameBytes]
  omega

/-- Reading back a channel of a pixel ENCODE wrote. -/
theorem encodeEffect_chanAt (s : State) (hw : 0 < s.width) (hk : s.codec.OK) (n k : Nat)
    (hn : n < (encodePixels s).length) (hc : k < s.codec.ch) :
    (encodeEffect s).chanAt n k = (encodePixels s)[n].getD k 0 := by
  have hl := encodePixels_row s hk _ (List.getElem_mem hn)
  have h4 : s.codec.ch ≤ 4 := by
    rcases hk.1 with h | h <;> omega
  have := read_putPixels_inside s.width (encodePixels s) s.pix 0 n k hw
    (fun g hg => by rw [encodePixels_row s hk g hg]; exact h4) hn (by omega)
  rw [List.getD_eq_getElem _ _ (by omega), ← this, Nat.zero_add]
  rfl

/-- The bit-mode threshold as a truth value (42_packer.md R138). -/
theorem bitOf_eq (v : Byte) : bitOf v = (decide (v = 255)).toNat := by
  unfold bitOf onByte
  by_cases h : v = 255
  · simp [h]
  · have h' : ¬v = 255#8 := h
    simp [h']

end Sys2Proof.Machine
end

