-- ==== Sys2Proof/Laws/PerInstr.lean ====
section
/-! SUPPORT. Statements about every command, one lemma per constructor: the word of a command is well
formed, has no bit above OP, and the table's numbering of its bits decodes to the command. -/

namespace Sys2Proof.Laws

/-- The word of the command i is a legal command word (30_encoding.md R90, R91), and read as the opcode
table numbers its 32 bits it decodes to i. -/
def TableWord.Statement (i : Instr) : Prop :=
  commandWordWf (encode i) = true ∧ mbzField (encode i) = 0 ∧
    decodeTableWord 32 (encode i).toNat = some i

theorem TableWord.encode : TableWord.Statement .encode := by
  unfold TableWord.Statement
  decide

theorem TableWord.decode : TableWord.Statement .decode := by
  unfold TableWord.Statement
  decide

theorem TableWord.fill : TableWord.Statement .fill := by
  unfold TableWord.Statement
  decide

theorem TableWord.addr : TableWord.Statement .addr := by
  unfold TableWord.Statement
  decide

theorem TableWord.index : TableWord.Statement .index := by
  unfold TableWord.Statement
  decide

theorem TableWord.capacity : TableWord.Statement .capacity := by
  unfold TableWord.Statement
  decide

theorem TableWord.sreset : TableWord.Statement .sreset := by
  unfold TableWord.Statement
  decide

end Sys2Proof.Laws
end

