-- ==== Sys2Proof/Laws/Status.lean ====
section
/-! SUPPORT. The bits of the STATUS word, accesses to the register file, and that every command gives a next
state with the engine IDLE. -/

namespace Sys2Proof.Machine

/-- Every bit of the STATUS word (10_state.md R23). -/
theorem statusWord_getLsbD (s : State) (n : Nat) (h : n < 32) : s.statusWord.getLsbD n =
    (if n = 0 then s.busy else if n = 1 then s.status.done else if n = 2 then s.errFlag
     else if n = 3 then s.status.wign else if n < 8 then false
     else if n < 12 then s.errCode.getLsbD (n - 8) else if n = 12 then s.status.idSent else false) := by
  unfold State.statusWord
  simp only [BitVec.getLsbD_append, BitVec.getLsbD_ofBool, BitVec.getLsbD_zero]
  interval_cases n <;> simp

/-- A 4-byte access to a 4-aligned register offset is OKAY (20_memory.md R69). -/
theorem okTarget_register (par : Config.Params) (a : BusAddr) (h : a.toNat < 0x100)
    (h4 : a.toNat % 4 = 0) : okTarget par .word a = some (.reg a.toNat) := by
  simp [okTarget, busTarget, legalAccess, Size.bytes, h, h4]

/-- An OKAY read while IDLE. -/
theorem busRead_idle (z : Size) (a : BusAddr) (s : State) (t : Target)
    (h : okTarget s.par z a = some t) (hb : s.busy = false) :
    busRead z a s = (.okayRead (readTarget z s t), s) := by
  simp [busRead, h, hb]

/-- An OKAY write while IDLE. -/
theorem busWrite_idle (z : Size) (a : BusAddr) (v : Word) (s : State) (t : Target)
    (h : okTarget s.par z a = some t) (hb : s.busy = false) :
    busWrite z a v s = (.okayWrite, writeTarget z v s t) := by
  simp [busWrite, h, hb]

/-- STATUS reads its value, BUSY or not (20_memory.md R76). -/
theorem busRead_status (s : State) : busRead .word 0x000004 s = (.okayRead s.statusWord, s) := by
  simp [busRead, okTarget, busTarget, legalAccess, Size.bytes, isStatus, readTarget, State.readReg]

/-- Every command gives a next state. -/
theorem exec_total (i : Instr) (s : State) : ∃ t, exec i s = .next t := by
  cases i <;> exact ⟨_, rfl⟩

/-- Every command leaves the engine IDLE. -/
theorem exec_idle (i : Instr) (s t : State) (h : exec i s = .next t) : t.busy = false := by
  rcases exec_cases i s t h with ⟨e, rfl, -⟩ | ⟨-, -, rfl⟩ | ⟨-, -, rfl⟩ | ⟨-, -, rfl⟩ |
    ⟨-, -, v, rfl⟩ | ⟨-, -, v, rfl⟩ | ⟨-, -, rfl⟩ | ⟨-, rfl⟩ <;> rfl

/-- A host turn while BUSY changes nothing but what the host holds, the count of BUSY turns, the draws, and
WIGN. -/
theorem hostTurn_busy (s : State) (hb : s.busy = true) : ∃ (h : HostSide) (d : Nat) (st : Status),
    hostTurn s = { s with host := h, waited := s.waited + 1, draws := d, status := st } ∧
      (st = s.status ∨ st = { s.status with wign := true }) := by
  obtain ⟨h, n, hn, hc⟩ := hostTurn_cases s
  rw [hb, if_pos rfl] at hn
  subst hn
  rcases hc with hc | ⟨z, a, v, hs, hc⟩ | ⟨z, a, hs, hc⟩
  · exact ⟨h, s.draws, s.status, hc, .inl rfl⟩
  · rcases busWrite_cases z a v { s with host := hs, waited := s.waited + 1 } with
      ⟨-, hw⟩ | ⟨t, -, -, hw⟩ | ⟨t, -, hb', -⟩
    · exact ⟨h, s.draws, s.status, by rw [hc, hw], .inl rfl⟩
    · exact ⟨h, s.draws, { s.status with wign := true }, by rw [hc, hw]; rfl, .inr rfl⟩
    · have : s.busy = false := hb'
      simp [hb] at this
  · rcases busRead_cases z a { s with host := hs, waited := s.waited + 1 } with
      ⟨-, hw⟩ | ⟨t, -, -, -, hw⟩ | ⟨t, -, -, hw⟩
    · exact ⟨h, s.draws, s.status, by rw [hc, hw], .inl rfl⟩
    · exact ⟨h, s.draws + 1, s.status, by rw [hc, hw], .inl rfl⟩
    · exact ⟨h, s.draws, s.status, by rw [hc, hw], .inl rfl⟩

end Sys2Proof.Machine
end

