-- ==== Sys2Proof/Tests/Slice0.lean ====
section
/-! SUPPORT. Small tests, their expected values taken from spec/95_test_vectors.md (named in each comment)
or worked out by hand from the rule named, and for every statement with hypotheses a witness: a concrete
state and operands that meet them. -/

namespace Sys2Proof.Tests

open Sys2Proof.Machine

-- Kernel evaluations one after the other: each waits for the theorems before it, and many waiting at once
-- need many threads.
set_option Elab.async false

/-! ## Well-formedness smoke tests: one ill-formed word for each check -/

/-- MBZ (bits 31:8) not zero. -/
theorem test_wf_refuses_mbz : mbzIsZero 0x00000101#32 = false ∧ commandWordWf 0x00000101#32 = false := by
  decide

/-- OP = 0x00, below the map. -/
theorem test_wf_refuses_op_zero : opIsAssigned 0x00000000#32 = false ∧ commandWordWf 0x00000000#32 = false := by
  decide

/-- OP = 0x08, above the map. -/
theorem test_wf_refuses_op_eight : opIsAssigned 0x00000008#32 = false ∧ commandWordWf 0x00000008#32 = false := by
  decide

/-- Every command of the map is well formed, and so is its word. -/
theorem test_wf_accepts_map : ∀ w ∈ [1, 2, 3, 4, 5, 6, 7], commandWordWf (BitVec.ofNat 32 w) = true := by decide +kernel

/-! ## Decoding: every command's word, bit by bit (30_encoding.md R90, R91) -/

theorem test_decode_encode : decode 0b00000000000000000000000000000001#32 = .ok .encode := by decide
theorem test_decode_decode : decode 0b00000000000000000000000000000010#32 = .ok .decode := by decide
theorem test_decode_fill : decode 0b00000000000000000000000000000011#32 = .ok .fill := by decide
theorem test_decode_addr : decode 0b00000000000000000000000000000100#32 = .ok .addr := by decide
theorem test_decode_index : decode 0b00000000000000000000000000000101#32 = .ok .index := by decide
theorem test_decode_capacity : decode 0b00000000000000000000000000000110#32 = .ok .capacity := by decide
theorem test_decode_sreset : decode 0b00000000000000000000000000000111#32 = .ok .sreset := by decide

/-- The illegal words of 95_test_vectors.md 2.10, each rejected by name. -/
theorem test_decode_illegal :
    decode 0x00000000#32 = .error .opNotAssigned ∧ decode 0x00000008#32 = .error .opNotAssigned ∧
    decode 0x000000FF#32 = .error .opNotAssigned ∧ decode 0x00000101#32 = .error .mbzNotZero ∧
    decode 0x80000001#32 = .error .mbzNotZero := by decide

/-- The table's numbering: one word, bit 0 the least significant. -/
theorem test_decode_table_word : decodeTableWord 32 5 = some .index ∧ decodeTableWord 32 8 = none := by decide

/-! ## Small states -/

/-- The state after reset, but for the image, the codec and PLEN, with 16 pixel words and 64 payload
bytes. -/
def cfg (w h ch ctrl plen : Nat) : State :=
  { State.reset with
    par := { pixDepth := 16, payDepth := 64, latMax := some 2 }
    regs := { Regs.reset with
      imgW := .ofNat 16 w, imgH := .ofNat 16 h, imgCh := .ofNat 3 ch, ctrl := .ofNat 7 ctrl
      plen := .ofNat 32 plen } }

/-- The same with ARG. -/
def cfgArg (w h arg : Nat) : State :=
  let s := cfg w h 0 0 0
  { s with par := Config.Params.reference, regs := { s.regs with arg := .ofNat 32 arg } }

/-- The state after an outcome. -/
def after (o : Host.Outcome State Fault Refusal) : State :=
  match o with
  | .next t => t
  | _ => State.reset

/-- Bytes stored from offset 0. -/
def bytes (bs : List Byte) : Memory := Memory.writeBytes [] 0 bs

/-- A pixel word (20_memory.md R63). -/
def pixWord (s : State) (j : Nat) : Word := wordLE (Memory.readBytes .pix s.pix (4 * j) 4)

/-- s with the command word v accepted. -/
def busyWith (v : Word) (s : State) : State := s.accept v

/-- s with IMG_AVAIL = n. -/
def avail (n : Nat) (s : State) : State := { s with regs := { s.regs with imgAvail := .ofNat 32 n } }

/-- s with a host program. -/
def withProg (p : List HostOp) (s : State) : State := { s with host := { s.host with prog := p } }

/-- The nine-byte RGBA frame of 95_test_vectors.md V5, to be encoded. -/
def nine : State := { cfg 4 4 4 0x08 9 with pay := bytes [1, 2, 3, 4, 5, 6, 7, 8, 9] }

/-- One byte 0xA5 in bit mode. -/
def bitOne : State := { cfg 4 4 3 0x07 1 with pay := bytes [0xA5] }

/-- An RGBA image of 4 by 4 whose header word is v, with n pixels present (95_test_vectors.md 2.9). -/
def headed (ctrl n : Nat) (v : Word) : State :=
  avail n { cfg 4 4 4 ctrl 0 with pix := Memory.writeBytes (bytes (List.replicate 64 0)) 12 (bytesLE 4 v) }

/-! ## The commands -/

/-- 95_test_vectors.md 2.5 and V5: the padded frame 01 … 09 10 10 10 with C = 4; the header 9 at index 0. -/
theorem test_encode_byte_mode : let t := after (exec .encode nine)
    pixWord t 3 = 0x00090000 ∧ pixWord t 2 = 0x04030201 ∧ pixWord t 0 = 0x10101009 ∧ t.statusWord = 2 := by
  decide +kernel

/-- 95_test_vectors.md 2.6: BitSplit(0xA5) at logical indices 1 to 3. -/
theorem test_encode_bit_mode : let t := after (exec .encode bitOne)
    (t.chanAt 1 0, t.chanAt 1 1, t.chanAt 1 2, t.chanAt 2 1, t.chanAt 2 2, t.chanAt 3 1, t.chanAt 3 2)
      = (255, 0, 255, 0, 255, 255, 0) := by
  decide +kernel

/-- 95_test_vectors.md 2.9, last row, with a 9-byte frame: PLEN = 9 and PAD_LEN = 3. -/
theorem test_decode_length : let t := after (exec .decode (headed 0x08 16 0x00090000))
    t.statusWord = 2 ∧ t.regs.plen = 9 ∧ t.regs.frameLen = 9 ∧ t.regs.padLen = 3 := by
  decide +kernel

/-- 95_test_vectors.md 2.9: CorruptHeader wins over TruncatedImage. -/
theorem test_decode_corrupt_header :
    (after (exec .decode (headed 0x08 2 0x003D0000))).statusWord = 0x306 := by decide +kernel

/-- 95_test_vectors.md 2.10: FILL of a 3-channel image leaves channel 3. -/
theorem test_fill_rgb :
    let s := { cfg 4 2 3 0 0 with
      pix := bytes [0x44, 0x33, 0x22, 0x11]
      regs := { (cfg 4 2 3 0 0).regs with fillColor := 0xAA000000 } }
    let t := after (exec .fill s)
    pixWord t 0 = 0x11000000 ∧ t.regs.imgAvail = 8 ∧ t.statusWord = 2 := by decide +kernel

/-- 95_test_vectors.md 2.10: IMG_CH = 5. -/
theorem test_fill_illegal : (after (exec .fill (cfg 4 4 5 0 0))).statusWord = 0x706 := by decide

/-- 95_test_vectors.md 2.1: the wrap to the second row. -/
theorem test_addr : (after (exec .addr (cfgArg 128 96 128))).regs.res = 0x0001007F := by decide

/-- 95_test_vectors.md 2.1: ARG = N. -/
theorem test_addr_capacity : (after (exec .addr (cfgArg 128 96 12288))).statusWord = 0x106 := by decide

/-- 95_test_vectors.md 2.1: (5, 3) is 506. -/
theorem test_index : (after (exec .index (cfgArg 128 96 0x00030005))).regs.res = 506 := by decide

/-- 95_test_vectors.md 2.1: x = W. -/
theorem test_index_capacity : (after (exec .index (cfgArg 128 96 0x80))).statusWord = 0x106 := by decide

/-- 95_test_vectors.md 2.2: 4×4, BIT, C = 3. -/
theorem test_capacity_bit : let t := after (exec .capacity (cfg 4 4 0 0x07 0))
    t.regs.capEnc = 3 ∧ t.regs.capDec = 5 := by decide

/-- 95_test_vectors.md 2.2: 4×4, BYTE, C = 4. -/
theorem test_capacity_byte : let t := after (exec .capacity (cfg 4 4 0 0x08 0))
    t.regs.capEnc = 60 ∧ t.regs.capDec = 60 := by decide

/-- 95_test_vectors.md 2.10: SRESET from CTRL = 0x38, STATUS = 0x306. -/
theorem test_sreset :
    let s := { cfg 4 4 4 0x38 0 with
      status := { done := true, wign := false, error := some .corruptHeader, idSent := false } }
    s.statusWord = 0x306 ∧ (after (exec .sreset s)).statusWord = 0 ∧
      (after (exec .sreset s)).regs.ctrl = 0 := by decide

/-- 95_test_vectors.md 2.10: an illegal word completes with STATUS = 0x606. -/
theorem test_illegal_command : (after (step (State.reset.withFetchWord 32 8))).statusWord = 0x606 := by decide

/-- 95_test_vectors.md 2.8: ENCODE after reset, through the engine. -/
theorem test_step_encode : (after (step (State.reset.withFetchWord 32 1))).statusWord = 0x706 := by decide

/-! ## The bus (95_test_vectors.md 2.11, 2.12) -/

/-- PIX[2] = 0xDE106948, as at the end of program P1. -/
def p1End : State := { cfg 4 1 3 0 0 with pix := Memory.writeBytes [] 8 [0x48, 0x69, 0x10, 0xDE] }

theorem test_bus_half_read : busRead .half 0x80000A p1End = (.okayRead 0x0000DE10, p1End) := by
  decide +kernel

theorem test_bus_misaligned : busRead .half 0x800009 p1End = (.error, p1End) := by decide +kernel

theorem test_bus_past_depth : (busRead .word 0x800040 p1End).1 = .error := by decide +kernel

theorem test_bus_ctrl_bits :
    (busRead .word 0x000000 (busWrite .word 0x000000 0xFFFFFFFF p1End).2).1 = .okayRead 0x7F := by decide +kernel

theorem test_bus_status_w1c :
    let s := { p1End with
      status := { done := true, wign := true, error := some .illegalCommand, idSent := false } }
    let t := (busWrite .word 0x000004 0x00000002 s).2
    s.statusWord = 0x60E ∧ t.statusWord = 0x60C ∧
      (busWrite .word 0x000004 0x0000FFF8 t).2.statusWord = 0x604 := by decide +kernel

/-- An SRESET written while BUSY is ignored and sets WIGN (STATUS = BUSY and WIGN). -/
theorem test_bus_busy_write :
    let t := (busWrite .word 0x000008 0x00000007 (busyWith 1 p1End)).2
    t.statusWord = 0x9 ∧ t.eng.op = 1 := by decide +kernel

/-- A host program: program its own ARG, run ADDR, wait, read RES. -/
theorem test_host_program_first_step :
    let s := withProg ([.sw 0x000034 3] ++ execOp 0 .addr ++ [.lw 1 0x000038]) (cfg 4 4 0 0 0)
    (after (step s)).regs.arg = 3 ∧ (after (step s)).host.reply = some .okayWrite := by decide +kernel

/-! ## Witnesses: commands and steps -/

/-- The four kinds of illegal word at the boundaries: MBZ, OP 0x00, 0x08 and 0xFF. -/
theorem witness_IllegalWordCompletesWithIllegalCommand : ∀ v ∈ [0x00000101, 0, 8, 0xFF],
    let s := busyWith (BitVec.ofNat 32 v) State.reset
    s.busy = true ∧ nextTurn s = .engine ∧ (s.eng.op.extractLsb' 8 24 ≠ 0 ∨ s.eng.op.extractLsb' 0 8 = 0 ∨
      8 ≤ (s.eng.op.extractLsb' 0 8).toNat) := by decide +kernel

theorem witness_StepRunsTheDecodedCommand : let s := busyWith 4 (cfg 4 4 0 0 0)
    s.busy = true ∧ nextTurn s = .engine ∧ decode s.eng.op = .ok .addr ∧ Instr.addr.wf = true := by decide

theorem witness_DecodeAndEncodeAgree : Instr.sreset.wf = true ∧ decode 7#32 = .ok .sreset ∧
    commandWordWf 7#32 = true := by decide

theorem witness_RunStartsAndCompletesTheCommand :
    let s := withProg (runOp .capacity ++ [.wait 0]) (cfg 4 4 0 0x08 0)
    s.busy = false ∧ s.sched = [] ∧ s.host.prog = runOp .capacity ++ [.wait 0] := by decide

theorem witness_EveryCommandCompletes :
    let s := { busyWith 4 (cfg 4 4 0 0 0) with sched := [.host, .host] }
    s.busy = true ∧ s.sched.length = 2 := by decide

/-- A BUSY state with both memories written and one host turn waited has the invariant. -/
def invState : State :=
  { busyWith 1 nine with pix := bytes [1, 2, 3, 4], waited := 1, sched := [.host] }

theorem witness_StepKeepsInv : Inv invState ∧ step invState = .next (after (step invState)) := by
  refine ⟨⟨by decide, by decide, by decide, by decide, by decide, fun n hn _ => ?_⟩, by rfl⟩
  have h2 : n = 2 := by injection hn with hn; exact hn.symm
  subst h2
  decide

/-! ## Witnesses: reset -/

/-- s with `rst` next. -/
def rstNext (s : State) : State := { s with sched := [.rst] }

/-- `rst` while IDLE, and while BUSY with a word that writes no memory: ADDR, INDEX, CAPACITY, SRESET and two
illegal words. -/
theorem witness_HardwareReset :
    (nextTurn (rstNext nine) = .rst ∧ nine.busy = false) ∧
    ∀ v ∈ [4, 5, 6, 7, 8, 0x101], let s := rstNext (busyWith (BitVec.ofNat 32 v) nine)
      nextTurn s = .rst ∧ s.busy = true ∧ writeSet s = .nothing ∧
        s.eng.op ≠ encode .encode ∧ s.eng.op ≠ encode .decode ∧ s.eng.op ≠ encode .fill := by decide +kernel

/-- `rst` while BUSY with ENCODE, DECODE and FILL whose checks fail, and with a FILL of a 3-channel image
that runs. -/
theorem witness_HardwareReset_checks :
    let s := fun v => rstNext (busyWith v (cfg 4 4 5 0 0))
    let u := rstNext (busyWith 3 (cfg 4 2 3 0 0))
    (nextTurn (s 1) = .rst ∧ (s 1).eng.op = encode .encode ∧ encodeCheck (s 1) ≠ none) ∧
    (nextTurn (s 2) = .rst ∧ (s 2).eng.op = encode .decode ∧ decodeCheck (s 2) ≠ none) ∧
    (nextTurn (s 3) = .rst ∧ (s 3).eng.op = encode .fill ∧ fillCheck (s 3) ≠ none) ∧
    (nextTurn u = .rst ∧ u.busy = true ∧ u.imgChannels = 3 ∧ writeSet u = .pixels 8) := by decide +kernel

/-- 20_memory.md R65: `rst` during a FILL leaves channel 3 of a 3-channel image; one draw a pixel is used. -/
theorem test_rst_keeps_channel_three :
    let t := hardReset { busyWith 3 (cfg 4 2 3 0 0) with pix := bytes [0x44, 0x33, 0x22, 0x11] }
    t.pixByte 3 = 0x11 ∧ t.draws = 8 := by decide +kernel

theorem nine_encodeRuns : EncodeRuns nine :=
  ⟨by decide, by decide, by decide, by decide, by decide, by decide⟩

theorem bitOne_encodeRuns : EncodeRuns bitOne :=
  ⟨by decide, by decide, by decide, by decide, by decide, by decide⟩

theorem busy_nine_encodeRuns : EncodeRuns (busyWith 1 nine) :=
  ⟨by decide, by decide, by decide, by decide, by decide, by decide⟩

theorem busy_bitOne_encodeRuns : EncodeRuns (busyWith 1 bitOne) :=
  ⟨by decide, by decide, by decide, by decide, by decide, by decide⟩

/-- Four channels, and three: of the last pixel written, channel 3 is then among the other bytes. -/
theorem witness_AbandonedEncodeLeavesFreshWords :
    let s := busyWith 1 nine
    let u := busyWith 1 bitOne
    (s.busy = true ∧ s.eng.op = encode .encode ∧ EncodeRuns s ∧ s.codec.npix s.paddedFrameLength = 3 ∧
      3 < s.codec.ch) ∧
    (u.busy = true ∧ u.eng.op = encode .encode ∧ EncodeRuns u ∧
      ∀ i ≤ u.codec.npix u.paddedFrameLength, ∀ k < u.codec.ch, u.pixelOffset 9 + 3 ≠ u.pixelOffset i + k) :=
  ⟨⟨by decide, by decide, busy_nine_encodeRuns, by decide, by decide⟩,
   ⟨by decide, by decide, busy_bitOne_encodeRuns, by decide⟩⟩

/-- Four channels, and three: the last pixel, its channel 3, and the first word past the image. -/
theorem witness_AbandonedFillLeavesFreshWords :
    let s := busyWith 3 nine
    let u := busyWith 3 (cfg 4 2 3 0 0)
    (s.busy = true ∧ s.eng.op = encode .fill ∧ s.ImgOK ∧ s.numPixels = 16 ∧ 3 < s.imgChannels) ∧
    (u.busy = true ∧ u.eng.op = encode .fill ∧ u.ImgOK ∧ 7 < u.numPixels ∧ u.imgChannels ≤ 3 ∧
      u.numPixels ≤ 8) := by decide

/-- A 9-byte RAW frame with all pixels present, and with just the pixels it needs. -/
theorem headed_decodeRuns : DecodeRuns (headed 0x08 16 0x00090000) ∧ DecodeRuns (headed 0x08 4 0x00090000) :=
  ⟨⟨by decide +kernel, by decide +kernel, by decide +kernel, by decide +kernel, by decide +kernel,
    by decide +kernel, by decide +kernel⟩,
   ⟨by decide +kernel, by decide +kernel, by decide +kernel, by decide +kernel, by decide +kernel,
    by decide +kernel, by decide +kernel⟩⟩

theorem witness_AbandonedDecodeLeavesFreshBytes :
    let s := busyWith 2 (headed 0x08 16 0x00090000)
    s.busy = true ∧ s.eng.op = encode .decode ∧ DecodeRuns s ∧ decodeLength s - s.fixedPart = 9 :=
  ⟨by decide +kernel, by decide +kernel,
   ⟨by decide +kernel, by decide +kernel, by decide +kernel, by decide +kernel, by decide +kernel,
    by decide +kernel, by decide +kernel⟩, by decide +kernel⟩

/-! ## Witnesses: the bus -/

/-- A read and a write that get ERROR, and each boundary of the address map (20_memory.md R61, R69). -/
theorem witness_BusErrorExactlyWhenIllegal :
    (∀ n ∈ [0x000100, 0x0FFFFF, 0x200000, 0x7FFFFF, 0x100040, 0x800040], let a := BitVec.ofNat 24 n;
      (busRead .byte a nine).1 = .error ∧ (busWrite .byte a 0 nine).1 = .error) ∧
    (busRead .half 0x000004 nine).1 = .error ∧ (busRead .word 0x800002 nine).1 = .error ∧
    (∀ n ∈ [0x0000FC, 0x100000, 0x10003C, 0x800000, 0x80003C], let a := BitVec.ofNat 24 n;
      (busRead .word a nine).1 ≠ .error ∧ (busWrite .word a 0 nine).1 ≠ .error) := by decide +kernel

theorem witness_BusErrorChangesNothing :
    (busRead .word 0x000100 nine).1 = .error ∧ (busWrite .word 0x000100 5 nine).1 = .error := by
  decide +kernel

theorem witness_AccessWhileBusy : let s := busyWith 4 nine
    s.busy = true ∧ (busWrite .word 0x000000 0x38 s).1 ≠ .error ∧ (busRead .word 0x000038 s).1 ≠ .error ∧
      (0x000038 : BusAddr) ≠ 0x000004 := by decide +kernel

theorem witness_HostTurnWhileBusyKeepsOperands :
    let s := withProg [.sw 0x000000 0x38] (busyWith 4 nine)
    s.busy = true ∧ (hostTurn s).status.wign = true := by decide +kernel

/-- An IDLE state: the one hypothesis of ReadsHaveNoSideEffect, RegisterMapReads, RegisterMapWrites,
StatusWriteOneToClear and of the second clause of CmdWriteIsAccepted; a BUSY one for its first. -/
theorem witness_idle_bus_statements : nine.busy = false ∧ (busyWith 1 nine).busy = true := by decide

theorem witness_ReservedOffsetsAndBits : nine.busy = false ∧
    ∀ n ∈ [0x00003C, 0x000054, 0x0000FC], let a : BusAddr := BitVec.ofNat 24 n
      a.toNat % 4 = 0 ∧ (a.toNat = 0x03C ∨ 0x054 ≤ a.toNat ∧ a.toNat < 0x100) := by decide +kernel

/-- The first and the last byte of each window, as far as the memories reach. -/
theorem witness_WindowAccesses : nine.busy = false ∧
    (∀ n ∈ [0x100000, 0x10003F], let a := BitVec.ofNat 24 n;
      (busWrite .byte a 0x33 nine).1 = .okayWrite ∧ (busRead .byte a nine).1 ≠ .error ∧
        0x100000 ≤ a.toNat ∧ a.toNat < 0x200000) ∧
    (∀ n ∈ [0x800000, 0x80003F], let a := BitVec.ofNat 24 n;
      (busWrite .byte a 0x33 nine).1 = .okayWrite ∧ (busRead .byte a nine).1 ≠ .error ∧
        0x800000 ≤ a.toNat) := by decide +kernel

/-- Each host instruction, while IDLE and while BUSY. -/
theorem witness_HostInstructionsAreOneAccess :
    ∀ op ∈ [HostOp.sw 0x000034 7, .sh 0x100000 0x4241, .sb 0x100001 0x41, .lw 1 0x000034, .lh 1 0x80000A,
        .lb 1 0x80000A],
      let s := withProg [op] nine
      let u := { withProg [op] (busyWith 1 nine) with sched := [.host] }
      (s.busy = false ∧ nextTurn s = .host ∧ s.host.prog = op :: []) ∧
        u.busy = true ∧ nextTurn u = .host ∧ u.host.prog = op :: [] := by decide

/-- WAIT with the engine IDLE and with it BUSY. -/
theorem witness_WaitPollsStatus :
    let s := withProg [.wait 0] nine
    let u := { withProg [.wait 0] (busyWith 1 nine) with sched := [.host] }
    nextTurn s = .host ∧ s.host.prog = [.wait 0] ∧ s.busy = false ∧
      nextTurn u = .host ∧ u.host.prog = [.wait 0] ∧ u.busy = true := by decide

/-! ## Witnesses: completion, errors, the interrupt -/

/-- A command other than DECODE that completes, one that raises, and DECODE. -/
theorem witness_CompletionFlags :
    (Instr.encode ≠ .sreset ∧ Instr.encode ≠ .decode ∧ encodeCheck nine = none) ∧
    (Instr.fill ≠ .sreset ∧ fillCheck (cfg 4 4 5 0 0) = some .illegalConfig) ∧ Instr.decode ≠ .sreset := by
  decide

/-- A command that raises, and one that completes. -/
theorem witness_ErrorsChangeOnlyStatus :
    exec .addr State.reset = .next (after (exec .addr State.reset)) ∧
      (after (exec .addr State.reset)).status.error ≠ none := ⟨rfl, by decide⟩

/-- Every command gives a next state: the hypothesis of ErrorCodesOfEachCommand, of
CommandsWriteOnlyTheirRegisters and of CommandsWriteOnlyTheImage, for each command. -/
theorem witness_exec_next : ∀ i ∈ [Instr.encode, .decode, .fill, .addr, .index, .capacity, .sreset],
    exec i (cfg 2 2 3 0x06 0) = .next (after (exec i (cfg 2 2 3 0x06 0))) := by
  intro i _
  cases i <;> rfl

theorem witness_CommandsWriteOnlyTheImage : (cfg 2 2 3 0x06 0).imgChannels = 3 ∧
    4 * (cfg 2 2 3 0x06 0).numPixels ≤ 16 ∧ Instr.fill ≠ .decode ∧ Instr.addr ≠ .encode ∧
    Instr.addr ≠ .fill := by decide

theorem witness_IrqOnCompletion : Instr.addr ≠ .sreset ∧
    exec .addr (cfg 4 4 0 0x40 0) = .next (after (exec .addr (cfg 4 4 0 0x40 0))) ∧
    (after (exec .addr (cfg 4 4 0 0x40 0))).irq = true := ⟨by decide, rfl, by decide⟩

theorem witness_IrqEnableAndClear :
    let s := after (exec .addr (cfg 4 4 0 0 0))
    Instr.addr ≠ .sreset ∧ s.busy = false ∧ s.status.done = true ∧ s.irq = false ∧ (0x00000002#32).getLsbD 1 = true ∧
      (after (exec .sreset s)).busy = false := by decide

/-! ## Witnesses: scan order and capacity -/

theorem witness_ScanOrderBijection : (0 < 4 ∧ 1 < 2 ∧ 3 < 4 * 2) ∧ address 4 (indexOf 4 3 1) = (3, 1) ∧
    indexOf 4 0 0 < indexOf 4 3 1 := by decide

/-- Not DimOK; ARG = N; ARG = N − 1. -/
theorem witness_AddrResult : ¬(cfgArg 0 96 0).DimOK ∧
    ((cfgArg 4 2 8).DimOK ∧ (cfgArg 4 2 8).numPixels ≤ (cfgArg 4 2 8).regs.arg.toNat) ∧
    ((cfgArg 4 2 7).DimOK ∧ (cfgArg 4 2 7).regs.arg.toNat < (cfgArg 4 2 7).numPixels) := by decide

/-- Not DimOK; x = W; y = H; the last pixel. -/
theorem witness_IndexResult : ¬(cfgArg 0 96 0).DimOK ∧
    ((cfgArg 4 2 4).DimOK ∧ (cfgArg 4 2 4).width ≤ (cfgArg 4 2 4).regs.arg.toNat % 65536) ∧
    ((cfgArg 4 2 0x20000).height ≤ (cfgArg 4 2 0x20000).regs.arg.toNat / 65536) ∧
    ((cfgArg 4 2 0x10003).regs.arg.toNat % 65536 < (cfgArg 4 2 0x10003).width ∧
      (cfgArg 4 2 0x10003).regs.arg.toNat / 65536 < (cfgArg 4 2 0x10003).height) := by decide

/-- Illegal (BIT with C = 4), and legal in both modes. -/
theorem witness_CapacityResult : (cfg 4 4 0 0x09 0).par.Legal ∧
    ¬((cfg 4 4 0 0x09 0).DimOK ∧ (cfg 4 4 0 0x09 0).codec.OK) ∧
    ((cfg 4 4 0 0x07 0).DimOK ∧ (cfg 4 4 0 0x07 0).codec.OK ∧ (cfg 4 4 0 0x07 0).pmodeBit = true) ∧
    ((cfg 4 4 0 0x08 0).DimOK ∧ (cfg 4 4 0 0x08 0).codec.OK ∧ (cfg 4 4 0 0x08 0).pmodeBit = false) := by
  decide

theorem witness_EncodeAndDecodeCapacities :
    let k : Codec := { bit := false, ch := 4 }
    let b : Codec := { bit := true, ch := 3 }
    (k.OK ∧ k.bit = false ∧ (16 - 1) * k.ch ≤ k.hmax) ∧ (b.OK ∧ b.bit = true ∧ 3 * ((16 - 1) / 9) ≤ b.hmax) := by
  decide

/-! ## Witnesses: the format -/

/-- 95_test_vectors.md 2.3: the header words 0x01040302 (C = 4) and FF FF FF (C = 3, HMAX). -/
theorem witness_HeaderRoundTrip :
    (0x01020304 ≤ 2 ^ (8 * 4) - 1 ∧ hdrPack 0x01020304 4 = [2, 3, 4, 1] ∧
      ∀ k (hk : k < (hdrPack 0x01020304 4).length), Pixel.chan ⟨2, 3, 4, 1⟩ k = (hdrPack 0x01020304 4)[k]) ∧
    (0xFFFFFF ≤ 2 ^ (8 * 3) - 1 ∧
      ∀ k (hk : k < (hdrPack 0xFFFFFF 3).length), Pixel.chan ⟨255, 255, 255, 9⟩ k = (hdrPack 0xFFFFFF 3)[k]) := by
  decide

/-- A padded frame of one byte and one that needs no padding. -/
theorem witness_PaddingRule : 0 < 3 ∧ 2 < (padded 3 [0x41]).length ∧ 2 < (padded 3 [1, 2, 3]).length ∧
    padLen 9 4 = 3 := by decide

theorem witness_FrameBytesOfEncode :
    (nine.structured = false ∧ 8 < nine.payloadLen) ∧
    ((cfg 4 4 4 0x38 1).structured = true ∧ (cfg 4 4 4 0x38 1).idEn = true ∧ 0 < (cfg 4 4 4 0x38 1).payloadLen) ∧
    ((cfg 4 4 4 0x18 1).structured = true ∧ (cfg 4 4 4 0x18 1).idEn = false) := by decide

/-- 95_test_vectors.md 2.6, first row. -/
theorem witness_BitMergeOfBitSplit :
    bitSplit 0xA5 = [[255, 0, 255], [0, 0, 255], [0, 255, 0]] := by decide

/-! ## Witnesses: ENCODE -/

/-- L = ECAP and L = ECAP + 1 on a 4×2 RGB image (ECAP 21). -/
theorem witness_EncodeAcceptsExactlyUpToEcap : ∀ n ∈ [21, 22], let s := cfg 4 2 3 0x06 n
    s.ImgOK ∧ s.codec.OK ∧ s.payloadLen ≤ s.par.payDepth ∧ s.imgChannels = s.codec.ch ∧ 1 ≤ s.frameLength ∧
      s.codec.ecap s.numPixels = 21 ∧ s.frameLength = n := by decide

/-- A state whose parameters lie outside the legal range, where the header range is exceeded. -/
def hugePay : State :=
  { cfg 4 4 3 0x06 0x1000000 with par := { pixDepth := 16, payDepth := 2 ^ 25, latMax := none } }

/-- One state for each error of ENCODE, and one for each cause of CapacityExceeded. -/
theorem witness_EncodeErrorsInOrder :
    ¬((cfg 4 4 4 0x09 1).ImgOK ∧ (cfg 4 4 4 0x09 1).codec.OK ∧
      (cfg 4 4 4 0x09 1).payloadLen ≤ (cfg 4 4 4 0x09 1).par.payDepth) ∧
    (let s := cfg 4 4 4 0x06 1;
      s.ImgOK ∧ s.codec.OK ∧ s.payloadLen ≤ s.par.payDepth ∧ s.imgChannels ≠ s.codec.ch) ∧
    (let s := cfg 4 4 4 0x08 0;
      s.ImgOK ∧ s.codec.OK ∧ s.payloadLen ≤ s.par.payDepth ∧ s.imgChannels = s.codec.ch ∧
        s.structured = false ∧ s.payloadLen = 0) ∧
    (let s := cfg 4 4 4 0x08 61;
      s.ImgOK ∧ s.codec.OK ∧ s.payloadLen ≤ s.par.payDepth ∧ s.imgChannels = s.codec.ch ∧
        1 ≤ s.frameLength ∧ s.numPixels < 1 + s.codec.npix s.paddedFrameLength) ∧
    (let s := hugePay;
      s.ImgOK ∧ s.codec.OK ∧ s.payloadLen ≤ s.par.payDepth ∧ s.imgChannels = s.codec.ch ∧
        1 ≤ s.frameLength ∧ 2 ^ (8 * s.codec.ch) - 1 < s.frameLength) := by decide

/-- RGBA and RGB, byte and bit mode: the hypotheses of EncodeRegistersAndHeader, EncodeByteModePlacement,
EncodeBitModePlacement and EncodeWritesNoOtherByte. -/
theorem witness_EncodePlacements :
    (EncodeRuns nine ∧ nine.codec.bit = false ∧ nine.codec.ch = 4 ∧ 11 < nine.paddedFrameLength) ∧
    (EncodeRuns bitOne ∧ bitOne.codec.bit = true ∧ 2 < bitOne.paddedFrameLength) :=
  ⟨⟨nine_encodeRuns, by decide, by decide, by decide⟩, bitOne_encodeRuns, by decide, by decide⟩

/-! ## Witnesses: DECODE (the states are rows of 95_test_vectors.md 2.9) -/

/-- The legality of DECODE's configuration and one channel count, as the error statement has it. -/
def decodeLegal (s : State) : Prop :=
  s.ImgOK ∧ s.codec.OK ∧ s.regs.imgAvail.toNat ≤ s.numPixels

/-- PAY_DEPTH = 8. -/
def smallPay : State :=
  { headed 0x08 16 0x00090000 with par := { pixDepth := 16, payDepth := 8, latMax := none } }

theorem witness_DecodeErrorsInOrder :
    ¬decodeLegal (headed 0x08 17 0) ∧
    (decodeLegal (headed 0x06 16 0) ∧ (headed 0x06 16 0).imgChannels ≠ (headed 0x06 16 0).codec.ch) ∧
    (decodeLegal (headed 0x08 0 0) ∧ (headed 0x08 0 0).imgChannels = (headed 0x08 0 0).codec.ch ∧
      (headed 0x08 0 0).regs.imgAvail = 0) ∧
    (∀ p ∈ [(0x08, 0x00000000#32), (0x08, 0x003D0000#32), (0x18, 0x00130000#32)], let s := headed p.1 16 p.2;
      s.imgChannels = s.codec.ch ∧ s.regs.imgAvail ≠ 0 ∧
        ¬HdrValid (decodeLength s) (s.codec.dcap s.numPixels) s.fixedPart) ∧
    (HdrValid (decodeLength smallPay) (smallPay.codec.dcap smallPay.numPixels) smallPay.fixedPart ∧
      smallPay.par.payDepth < decodeLength smallPay - smallPay.fixedPart ∧ smallPay.regs.imgAvail ≠ 0) ∧
    (let s := headed 0x08 3 0x00090000;
      decodeLegal s ∧ HdrValid (decodeLength s) (s.codec.dcap s.numPixels) s.fixedPart ∧
        decodeLength s - s.fixedPart ≤ s.par.payDepth ∧
        s.regs.imgAvail.toNat < 1 + s.codec.nread (decodeLength s)) := by
  unfold decodeLegal
  decide +kernel

/-- Byte mode, L = 9 (1 mod 4), with the pixels of 8 bytes. -/
theorem witness_TruncationIsDetected : let s := headed 0x08 3 0x00090000
    s.ImgOK ∧ s.codec.OK ∧ s.regs.imgAvail.toNat ≤ s.numPixels ∧ s.imgChannels = s.codec.ch ∧
      HdrValid (decodeLength s) (s.codec.dcap s.numPixels) s.fixedPart ∧
      decodeLength s - s.fixedPart ≤ s.par.payDepth ∧ decodeLength s % s.codec.ch = 1 ∧
      s.regs.imgAvail.toNat = 1 + s.codec.nread (decodeLength s - 1) := by decide +kernel

/-- The same in bit mode: L = 2 with the pixels of one byte. -/
theorem witness_TruncationIsDetected_bit :
    let s := { headed 0x07 4 0x00020000 with regs := { (headed 0x07 4 0).regs with imgCh := 3 } }
    s.ImgOK ∧ s.codec.OK ∧ s.regs.imgAvail.toNat ≤ s.numPixels ∧ s.imgChannels = s.codec.ch ∧
      HdrValid (decodeLength s) (s.codec.dcap s.numPixels) s.fixedPart ∧ s.codec.bit = true ∧
      s.regs.imgAvail.toNat = 1 + s.codec.nread (decodeLength s - 1) := by decide +kernel

/-- A RAW and a STRUCTURED frame (of 20 bytes, no payload). -/
theorem witness_DecodeResult : DecodeRuns (headed 0x08 16 0x00090000) ∧
    (headed 0x08 16 0x00090000).structured = false ∧
    DecodeRuns (headed 0x18 16 0x00140000) ∧ (headed 0x18 16 0x00140000).structured = true :=
  ⟨headed_decodeRuns.1, by decide,
   ⟨by decide +kernel, by decide +kernel, by decide +kernel, by decide +kernel, by decide +kernel,
    by decide +kernel, by decide +kernel⟩, by decide⟩

theorem witness_DecodeUnpacksTheFrame :
    (let s := headed 0x08 16 0x00090000;
      s.codec.OK ∧ s.codec.ch = 4 ∧ s.codec.bit = false ∧ 8 < decodeLength s) ∧
    (let s := headed 0x07 16 0x00020000;
      s.codec.OK ∧ s.codec.ch = 3 ∧ s.codec.bit = true ∧ 1 < decodeLength s) := by decide +kernel

/-- The same image with its last pixel, index 15, and the three unused channels of index 3 changed. -/
theorem witness_DecodeIgnoresPaddingAndUnusedPixels :
    let s := headed 0x08 16 0x00090000
    let u := { s with pix := Memory.writeBytes (Memory.writeBytes s.pix 48 [7, 7, 7, 7]) 1 [8, 8, 8] }
    s.codec.OK ∧ s.codec.bit = false ∧ u.pix ≠ s.pix ∧ (∀ k < s.codec.ch, u.chanAt 0 k = s.chanAt 0 k) ∧
      (∀ j < decodeLength s,
        u.chanAt (1 + j / s.codec.ch) (j % s.codec.ch) = s.chanAt (1 + j / s.codec.ch) (j % s.codec.ch)) := by
  decide +kernel

/-- The state after ENCODE of `nine`, with the payload cleared and only the frame's pixels present. -/
def nineEncoded : State := { avail 4 (after (exec .encode nine)) with pay := [] }

theorem witness_EncodeThenDecodeRoundTrip :
    let t := after (exec .encode nine)
    EncodeRuns nine ∧ exec .encode nine = .next t ∧ nineEncoded.codec = t.codec ∧
    nineEncoded.structured = t.structured ∧ nineEncoded.par = t.par ∧
    nineEncoded.regs.imgW = t.regs.imgW ∧ nineEncoded.regs.imgH = t.regs.imgH ∧
    nineEncoded.regs.imgCh = t.regs.imgCh ∧ nineEncoded.pix = t.pix ∧
    1 + nine.codec.npix nine.paddedFrameLength ≤ nineEncoded.regs.imgAvail.toNat ∧
    nineEncoded.regs.imgAvail.toNat ≤ nineEncoded.numPixels :=
  ⟨nine_encodeRuns, rfl, rfl, rfl, by decide +kernel, by decide +kernel, by decide +kernel,
   by decide +kernel, rfl, by decide +kernel, by decide +kernel⟩

/-! ## Witnesses: FILL -/

theorem witness_FillResult : ¬(cfg 4 4 5 0 0).ImgOK ∧ (cfg 4 2 3 0 0).ImgOK ∧ (cfg 4 4 4 0 0).ImgOK ∧
    3 < (cfg 4 2 3 0 0).width ∧ 1 < (cfg 4 2 3 0 0).height ∧ (cfg 4 2 3 0 0).numPixels = 8 := by decide

end Sys2Proof.Tests
end

section
/-! PROOFS. The register file as the host sees it over the bus while IDLE, the STATUS word, and which registers
each command writes (10_state.md R21 to R39). -/

namespace Sys2Proof.Machine

/-! ## Accesses to the register file while IDLE -/

/-- A register reads its value and keeps the state. -/
theorem busRead_register_idle (s : State) (a : BusAddr) (hb : s.busy = false) (ha : a.toNat < 0x100)
    (h4 : a.toNat % 4 = 0) : busRead .word a s = (.okayRead (s.readReg a.toNat), s) :=
  busRead_idle .word a s (.reg a.toNat) (okTarget_register s.par a ha h4) hb

/-- A write to a register is OKAY and does what `State.writeReg` says. -/
theorem busWrite_register_idle (s : State) (a : BusAddr) (v : Word) (hb : s.busy = false)
    (ha : a.toNat < 0x100) (h4 : a.toNat % 4 = 0) :
    busWrite .word a v s = (.okayWrite, s.writeReg a.toNat v) :=
  busWrite_idle .word a v s (.reg a.toNat) (okTarget_register s.par a ha h4) hb

/-- A register offset other than those of STATUS and CMD is written in the register file alone. -/
theorem writeReg_eq_write (s : State) (off : Nat) (v : Word) (hstatus : off ≠ 0x004) (hcmd : off ≠ 0x008) :
    s.writeReg off v = { s with regs := s.regs.write off v } := by
  unfold State.writeReg
  split
  · exact absurd rfl hstatus
  · exact absurd rfl hcmd
  · rfl

/-- A write to one register leaves the value of every other one alone: in the proof, the read of the written
offset contradicts `h`, and every other read is of a field the write keeps. -/
theorem readReg_write_other (s : State) (off off' : Nat) (v : Word) (h : off' ≠ off) :
    { s with regs := s.regs.write off v }.readReg off' = s.readReg off' := by
  unfold Regs.write
  split
  case h_14 => rfl
  all_goals
    unfold State.readReg
    split
    all_goals trivial

/-! ## Implemented and reserved bits -/

/-- Storing n bits of a word and reading them back keeps the n low bits. -/
theorem setWidth_setWidth_eq_and (v : Word) (n : Nat) :
    (v.setWidth n).setWidth 32 = v &&& BitVec.ofNat 32 (2 ^ n - 1) := by
  apply BitVec.eq_of_getLsbD_eq
  intro i hi
  simp only [BitVec.getLsbD_setWidth, BitVec.getLsbD_and, BitVec.getLsbD_ofNat,
    Nat.testBit_two_pow_sub_one, hi, decide_true, Bool.true_and, Bool.and_comm]

/-- A register stored in n bits reads 0 above them. -/
theorem setWidth_ushiftRight_self {n : Nat} (x : BitVec n) : (x.setWidth 32 : Word) >>> n = 0 := by
  apply BitVec.eq_of_getLsbD_eq
  intro i _
  simp

/-- The reserved register offsets read 0 (10_state.md R39). -/
theorem readReg_reserved (s : State) (off : Nat) (h : off = 0x03C ∨ 0x054 ≤ off) : s.readReg off = 0 := by
  unfold State.readReg
  split
  case h_20 => rfl
  all_goals omega

/-- The reserved register offsets ignore writes (10_state.md R39). -/
theorem writeReg_reserved (s : State) (off : Nat) (v : Word) (h : off = 0x03C ∨ 0x054 ≤ off) :
    s.writeReg off v = s := by
  rw [writeReg_eq_write s off v (by omega) (by omega)]
  unfold Regs.write
  split
  case h_14 => rfl
  all_goals omega

/-- Bits 7:4 of the STATUS word are 0, as a mask has it. -/
theorem statusWord_and_0xF0 (s : State) : s.statusWord &&& 0xF0 = 0 := by
  apply BitVec.eq_of_getLsbD_eq
  intro i hi
  have hmask : (0xF0 : Word).getLsbD i = decide (4 ≤ i ∧ i < 8) := by decide +revert
  rw [BitVec.getLsbD_and, hmask, statusWord_getLsbD s i hi, BitVec.ofNat_eq_ofNat, BitVec.getLsbD_zero]
  by_cases h : 4 ≤ i ∧ i < 8
  · simp (disch := omega) [if_neg, h.2]
  · simp [h]

/-- Bits 31:13 of the STATUS word are 0. -/
theorem statusWord_extract_31_13 (s : State) : s.statusWord.extractLsb' 13 19 = 0 := by
  apply BitVec.eq_of_getLsbD_eq
  intro i hi
  rw [BitVec.getLsbD_extractLsb', statusWord_getLsbD s _ (by omega)]
  simp (disch := omega) [if_neg]

/-- The STATUS word is 0 from bit 13 on. -/
theorem statusWord_ushiftRight_13 (s : State) : s.statusWord >>> 13 = 0 := by
  apply BitVec.eq_of_getLsbD_eq
  intro i _
  rw [BitVec.getLsbD_ushiftRight, BitVec.ofNat_eq_ofNat, BitVec.getLsbD_zero]
  by_cases hi : 13 + i < 32
  · rw [statusWord_getLsbD s _ hi]
    simp (disch := omega) only [if_neg]
  · exact BitVec.getLsbD_of_ge _ _ (by omega)

/-- Bits 7:4 of the STATUS word are 0. -/
theorem statusWord_extract_7_4 (s : State) : s.statusWord.extractLsb' 4 4 = 0 := by
  apply BitVec.eq_of_getLsbD_eq
  intro i hi
  rw [BitVec.getLsbD_extractLsb', statusWord_getLsbD s _ (by omega)]
  simp (disch := omega) [if_neg]

/-- Bits 11:8 of the STATUS word are ERRCODE. -/
theorem statusWord_extract_11_8 (s : State) : s.statusWord.extractLsb' 8 4 = s.errCode := by
  apply BitVec.eq_of_getLsbD_eq
  intro i hi
  rw [BitVec.getLsbD_extractLsb', statusWord_getLsbD s _ (by omega)]
  simp (disch := omega) [if_neg, if_pos, hi]

/-! ## The register map over the bus -/

/-- Settles O21: each register is read at its own 4-aligned offset (10_state.md R21). -/
theorem registerMapReads : Obligations.RegisterMapReads := by
  intro s hb p hp
  have hmap : p.1.toNat < 0x100 ∧ p.1.toNat % 4 = 0 ∧ s.readReg p.1.toNat = p.2 := by
    fin_cases hp <;> exact ⟨by simp, by simp, rfl⟩
  obtain ⟨hlt, h4, hread⟩ := hmap
  rw [busRead_register_idle s p.1 hb hlt h4, hread]

/-- A write to a read-write register, given which of its bits read back. -/
theorem busWrite_readWrite (s : State) (v mask : Word) (a : BusAddr) (hb : s.busy = false)
    (ha : a.toNat < 0x100) (h4 : a.toNat % 4 = 0) (hstatus : a.toNat ≠ 0x004) (hcmd : a.toNat ≠ 0x008)
    (hback : { s with regs := s.regs.write a.toNat v }.readReg a.toNat = v &&& mask) :
    ∃ t, busWrite .word a v s = (.okayWrite, t) ∧ busRead .word a t = (.okayRead (v &&& mask), t) ∧
      (∀ off, off ≠ a.toNat → t.readReg off = s.readReg off) ∧ t = { s with regs := t.regs } := by
  refine ⟨{ s with regs := s.regs.write a.toNat v }, ?_, ?_, ?_, rfl⟩
  · rw [busWrite_register_idle s a v hb ha h4, writeReg_eq_write s _ v hstatus hcmd]
  · rw [← hback]
    exact busRead_register_idle _ a hb ha h4
  · exact fun off hoff => readReg_write_other s a.toNat off v hoff

/-- Settles O22: the read-only offsets are no case of `Regs.write`; a read-write register reads back the bits
it implements, and no other one reads it. -/
theorem registerMapWrites : Obligations.RegisterMapWrites := by
  intro s v hb
  constructor
  · intro a ha
    have hkept : a.toNat < 0x100 ∧ a.toNat % 4 = 0 ∧ s.writeReg a.toNat v = s := by
      fin_cases ha <;> exact ⟨by decide, by decide, rfl⟩
    obtain ⟨hlt, h4, hw⟩ := hkept
    rw [busWrite_register_idle s a v hb hlt h4, hw]
  · intro p hp
    have hplace : p.1.toNat < 0x100 ∧ p.1.toNat % 4 = 0 ∧ p.1.toNat ≠ 0x004 ∧ p.1.toNat ≠ 0x008 := by
      fin_cases hp <;> decide
    obtain ⟨hlt, h4, hstatus, hcmd⟩ := hplace
    refine busWrite_readWrite s v p.2 p.1 hb hlt h4 hstatus hcmd ?_
    fin_cases hp
    · exact setWidth_setWidth_eq_and v 7
    · exact setWidth_setWidth_eq_and v 16
    · exact setWidth_setWidth_eq_and v 16
    · exact setWidth_setWidth_eq_and v 3
    all_goals exact BitVec.and_allOnes.symm

/-- Settles O23: the reserved offsets fall through both register maps, and the reserved bits lie above what
each register stores. -/
theorem reservedOffsetsAndBits : Obligations.ReservedOffsetsAndBits := by
  intro s v hb
  refine ⟨fun a h4 hres => ?_, setWidth_ushiftRight_self s.regs.ctrl, statusWord_ushiftRight_13 s,
    statusWord_and_0xF0 s, setWidth_ushiftRight_self s.regs.imgW, setWidth_ushiftRight_self s.regs.imgH,
    setWidth_ushiftRight_self s.regs.imgCh⟩
  have hlt : a.toNat < 0x100 := by omega
  have hoff : a.toNat = 0x03C ∨ 0x054 ≤ a.toNat := by omega
  exact ⟨by rw [busRead_register_idle s a hb hlt h4, readReg_reserved s _ hoff],
    by rw [busWrite_register_idle s a v hb hlt h4, writeReg_reserved s _ v hoff]⟩

/-! ## STATUS -/

/-- A write of v to STATUS clears bits 1 and 3 where v has them set, and no other bit. -/
theorem statusWord_clearStatus (s : State) (v : Word) :
    (s.clearStatus v).statusWord = s.statusWord &&& ~~~(v &&& 0x0000000A) := by
  apply BitVec.eq_of_getLsbD_eq
  intro i hi
  have hmask : (0x0000000A : Word).getLsbD i = decide (i = 1 ∨ i = 3) := by decide +revert
  have herr : (s.clearStatus v).errFlag = s.errFlag := rfl
  have hcode : (s.clearStatus v).errCode = s.errCode := rfl
  rw [BitVec.getLsbD_and, BitVec.getLsbD_not, BitVec.getLsbD_and, hmask, statusWord_getLsbD _ _ hi,
    statusWord_getLsbD _ _ hi, herr, hcode]
  by_cases hdone : i = 1
  · simp [hdone]
  · by_cases hwign : i = 3
    · simp [hwign]
    · simp [hdone, hwign, hi]

/-- Settles O24: the written word acts through `State.clearStatus` alone. -/
theorem statusWriteOneToClear : Obligations.StatusWriteOneToClear := by
  intro s v hb
  exact ⟨s.clearStatus v, busWrite_register_idle s 0x000004 v hb (by decide) (by decide),
    statusWord_clearStatus s v, rfl⟩

/-- Settles O25: each field is a clause of `statusWord_getLsbD`, and ERR is by definition ERRCODE ≠ 0. -/
theorem statusWordFields : Obligations.StatusWordFields := by
  intro s
  have herr : s.statusWord.getLsbD 2 = decide (s.statusWord.extractLsb' 8 4 ≠ 0) := by
    rw [statusWord_extract_11_8, statusWord_getLsbD s 2 (by decide)]
    simp [State.errFlag, bne, Bool.beq_eq_decide_eq]
  exact ⟨statusWord_getLsbD s 0 (by decide), statusWord_getLsbD s 1 (by decide), herr,
    statusWord_getLsbD s 3 (by decide), statusWord_extract_7_4 s, statusWord_extract_11_8 s,
    statusWord_getLsbD s 12 (by decide), statusWord_extract_31_13 s⟩

/-! ## The registers a command writes -/

/-- The registers DECODE writes once its checks have passed: its results, and with STRUCTURED framing the
identifier bank and VB. -/
theorem decodeEffect_regs_frame (s : State) : (decodeEffect s).regs = { s.regs with
    plen := (decodeEffect s).regs.plen, frameLen := (decodeEffect s).regs.frameLen
    padLen := (decodeEffect s).regs.padLen, id0 := (decodeEffect s).regs.id0
    id1 := (decodeEffect s).regs.id1, id2 := (decodeEffect s).regs.id2
    id3 := (decodeEffect s).regs.id3, vb := (decodeEffect s).regs.vb } := by
  cases h : s.structured <;> simp [decodeEffect, h, Regs.takeBlocks]

/-- Settles O36: a command that raises keeps every register; one that completes writes the registers of its
effect. -/
theorem commandsWriteOnlyTheirRegisters : Obligations.CommandsWriteOnlyTheirRegisters := by
  intro i s t h hne
  rcases exec_cases i s t h with ⟨e, rfl, -⟩ | ⟨rfl, -, rfl⟩ | ⟨rfl, -, rfl⟩ | ⟨rfl, -, rfl⟩ |
    ⟨rfl, -, v, rfl⟩ | ⟨rfl, -, v, rfl⟩ | ⟨rfl, -, rfl⟩ | ⟨rfl, -⟩
  · refine ⟨rfl, rfl, rfl, rfl, rfl, rfl, ?_⟩
    cases i <;> rfl
  · exact ⟨rfl, rfl, rfl, rfl, rfl, rfl, rfl⟩
  · exact ⟨rfl, rfl, rfl, rfl, rfl, rfl, decodeEffect_regs_frame s⟩
  · exact ⟨rfl, rfl, rfl, rfl, rfl, rfl, rfl⟩
  · exact ⟨rfl, rfl, rfl, rfl, rfl, rfl, rfl⟩
  · exact ⟨rfl, rfl, rfl, rfl, rfl, rfl, rfl⟩
  · exact ⟨rfl, rfl, rfl, rfl, rfl, rfl, rfl⟩
  · exact absurd rfl hne

end Sys2Proof.Machine
end

section
/-! PROOFS. Bus accesses: when the response is ERROR, what an access does while BUSY, and the little-endian
windows (20_memory.md R61 to R76). -/

namespace Sys2Proof.Machine

/-! ## ERROR responses -/

theorem busRead_eq_error_iff (z : Size) (a : BusAddr) (s : State) :
    (busRead z a s).1 = .error ↔ okTarget s.par z a = none := by
  rcases busRead_cases z a s with ⟨ht, hr⟩ | ⟨t, ht, -, -, hr⟩ | ⟨t, ht, -, hr⟩ <;> simp [ht, hr]

theorem busWrite_eq_error_iff (z : Size) (a : BusAddr) (v : Word) (s : State) :
    (busWrite z a v s).1 = .error ↔ okTarget s.par z a = none := by
  rcases busWrite_cases z a v s with ⟨ht, hw⟩ | ⟨t, ht, -, hw⟩ | ⟨t, ht, -, hw⟩ <;> simp [ht, hw]

/-- Settles O16: an ERROR response is the access without a target, which keeps the state. -/
theorem busErrorChangesNothing : Obligations.BusErrorChangesNothing := by
  intro z a v s
  constructor
  · intro he
    have hr : busRead z a s = (.error, s) := by
      simp [busRead, (busRead_eq_error_iff z a s).mp he]
    rw [hr]
    exact ⟨rfl, rfl⟩
  · intro he
    simp [busWrite, (busWrite_eq_error_iff z a v s).mp he]

/-- An aligned access to bytes of PAYMEM is OKAY. -/
theorem okTarget_pay_of_fits (par : Config.Params) (z : Size) (a : BusAddr) (hal : a.toNat % z.bytes = 0)
    (hlo : 0x100000 ≤ a.toNat) (hhi : a.toNat < 0x200000)
    (hfit : a.toNat - 0x100000 + z.bytes ≤ par.payDepth) :
    okTarget par z a = some (.pay (a.toNat - 0x100000)) := by
  have hreg : ¬a.toNat < 0x100 := by omega
  simp [okTarget, busTarget, legalAccess, hal, hreg, hlo, hhi, hfit]

/-- An aligned access to bytes of PIXMEM is OKAY. -/
theorem okTarget_pix_of_fits (par : Config.Params) (z : Size) (a : BusAddr) (hal : a.toNat % z.bytes = 0)
    (hlo : 0x800000 ≤ a.toNat) (hfit : a.toNat - 0x800000 + z.bytes ≤ 4 * par.pixDepth) :
    okTarget par z a = some (.pix (a.toNat - 0x800000)) := by
  have hreg : ¬a.toNat < 0x100 := by omega
  have hpay : ¬(0x100000 ≤ a.toNat ∧ a.toNat < 0x200000) := by omega
  simp [okTarget, busTarget, legalAccess, hal, hreg, hpay, hlo, hfit]

/-- The accesses that have no target: one clause for each way the address map, the sizes, the alignment or a
memory's depth rejects one (20_memory.md R61, R69, R70). -/
theorem okTarget_eq_none_iff (par : Config.Params) (z : Size) (a : BusAddr) :
    okTarget par z a = none ↔
      (0x100 ≤ a.toNat ∧ a.toNat < 0x100000) ∨ (0x200000 ≤ a.toNat ∧ a.toNat < 0x800000) ∨
      (a.toNat < 0x100 ∧ z ≠ .word) ∨ a.toNat % z.bytes ≠ 0 ∨
      (0x100000 ≤ a.toNat ∧ a.toNat < 0x200000 ∧ par.payDepth < a.toNat - 0x100000 + z.bytes) ∨
      (0x800000 ≤ a.toNat ∧ 4 * par.pixDepth < a.toNat - 0x800000 + z.bytes) := by
  constructor
  · intro hnone
    by_contra hbad
    simp only [not_or, not_and, not_lt, not_not] at hbad
    obtain ⟨hgap, hgap', hsize, hal, hpay, hpix⟩ := hbad
    by_cases hreg : a.toNat < 0x100
    · obtain rfl := hsize hreg
      simp [okTarget_register par a hreg hal] at hnone
    · have hlo : 0x100000 ≤ a.toNat := hgap (by omega)
      by_cases hhi : a.toNat < 0x200000
      · simp [okTarget_pay_of_fits par z a hal hlo hhi (hpay hlo hhi)] at hnone
      · have hlo' : 0x800000 ≤ a.toNat := by omega
        simp [okTarget_pix_of_fits par z a hal hlo' (hpix hlo')] at hnone
  · intro hbad
    by_contra hsome
    obtain ⟨t, ht⟩ := Option.ne_none_iff_exists'.mp hsome
    obtain ⟨hal, ⟨-, rfl, hreg⟩ | ⟨-, hlo, hhi, hfit⟩ | ⟨-, hlo, hfit⟩⟩ := okTarget_cases par z a t ht
    · simp only [ne_eq, not_true_eq_false, and_false, false_or] at hbad
      omega
    all_goals omega

/-- Settles O17: reads and writes are rejected alike, where the access has no target. -/
theorem busErrorExactlyWhenIllegal : Obligations.BusErrorExactlyWhenIllegal := by
  intro z a v s
  exact ⟨(busRead_eq_error_iff z a s).trans (okTarget_eq_none_iff s.par z a),
    (busWrite_eq_error_iff z a v s).trans (okTarget_eq_none_iff s.par z a)⟩

/-! ## Accesses while IDLE and while BUSY -/

theorem busRead_idle_state (z : Size) (a : BusAddr) (s : State) (hb : s.busy = false) :
    (busRead z a s).2 = s := by
  rcases busRead_cases z a s with ⟨-, hr⟩ | ⟨t, -, hbusy, -⟩ | ⟨t, -, -, hr⟩
  · rw [hr]
  · simp [hb] at hbusy
  · rw [hr]

/-- Settles O20: a read takes a draw only while BUSY. -/
theorem readsHaveNoSideEffect : Obligations.ReadsHaveNoSideEffect := busRead_idle_state

/-- Settles O18: the three kinds of access that R76 tells apart are those of `busWrite_cases`,
`busRead_status` and `busRead_cases`; no other address than that of STATUS has STATUS as its target. -/
theorem accessWhileBusy : Obligations.AccessWhileBusy := by
  intro z a v s hb
  refine ⟨fun hok => ?_, busRead_status s, fun hok hne => ?_⟩
  · rcases busWrite_cases z a v s with ⟨-, hw⟩ | ⟨t, -, -, hw⟩ | ⟨t, -, hidle, -⟩
    · simp [hw] at hok
    · exact hw
    · simp [hb] at hidle
  · rcases busRead_cases z a s with ⟨-, hr⟩ | ⟨t, -, -, -, hr⟩ | ⟨t, ht, hidle | rfl, -⟩
    · simp [hr] at hok
    · exact hr
    · simp [hb] at hidle
    · obtain ⟨-, ⟨hreg, -⟩ | ⟨hpay, -⟩ | ⟨hpix, -⟩⟩ := okTarget_cases s.par z a _ ht
      · exact absurd (BitVec.eq_of_toNat_eq (Target.reg.inj hreg).symm) hne
      · cases hpay
      · cases hpix

/-- Settles O19: a host turn while BUSY reaches only the host, the counters and WIGN. -/
theorem hostTurnWhileBusyKeepsOperands : Obligations.HostTurnWhileBusyKeepsOperands := by
  intro s hb
  obtain ⟨h, d, st, ht, hst⟩ := hostTurn_busy s hb
  rw [ht]
  exact ⟨rfl, rfl, rfl, rfl, rfl, rfl, hst⟩

/-! ## The windows -/

/-- An OKAY access at an address of the PAYMEM window goes to PAYMEM. -/
theorem okTarget_payWindow (par : Config.Params) (z : Size) (a : BusAddr)
    (hok : okTarget par z a ≠ none) (hlo : 0x100000 ≤ a.toNat) (hhi : a.toNat < 0x200000) :
    okTarget par z a = some (.pay (a.toNat - 0x100000)) := by
  obtain ⟨t, ht⟩ := Option.ne_none_iff_exists'.mp hok
  obtain ⟨-, ⟨-, -, hreg⟩ | ⟨rfl, -⟩ | ⟨-, hpix, -⟩⟩ := okTarget_cases par z a t ht
  · omega
  · exact ht
  · omega

/-- An OKAY access at an address of the PIXMEM window goes to PIXMEM. -/
theorem okTarget_pixWindow (par : Config.Params) (z : Size) (a : BusAddr)
    (hok : okTarget par z a ≠ none) (hlo : 0x800000 ≤ a.toNat) :
    okTarget par z a = some (.pix (a.toNat - 0x800000)) := by
  obtain ⟨t, ht⟩ := Option.ne_none_iff_exists'.mp hok
  obtain ⟨-, ⟨-, -, hreg⟩ | ⟨-, -, hpay, -⟩ | ⟨rfl, -⟩⟩ := okTarget_cases par z a t ht
  · omega
  · omega
  · exact ht

/-- The bytes of a word written at rising offsets: byte k lies at offset b + k, and nothing else moves. -/
theorem read_writeBytes_bytesLE (sp : Config.Space) (m : Memory) (b n : Nat) (v : Word) :
    (∀ k < n, Memory.read sp (Memory.writeBytes m b (bytesLE n v)) (b + k) = v.extractLsb' (8 * k) 8) ∧
    (∀ c, (c < b ∨ b + n ≤ c) →
      Memory.read sp (Memory.writeBytes m b (bytesLE n v)) c = Memory.read sp m c) := by
  constructor
  · intro k hk
    have hlen : k < (bytesLE n v).length := by simpa using hk
    rw [read_writeBytes_inside sp _ m b k hlen, bytesLE_getElem]
    rfl
  · intro c hc
    exact read_writeBytes_outside sp _ m b c (by simpa using hc)

/-- Settles O27: the target of the access is the window's memory, and its bytes are those of the data. -/
theorem windowWriteIsLittleEndian : Obligations.WindowWriteIsLittleEndian := by
  intro z a v s hb hokay
  have hok : okTarget s.par z a ≠ none :=
    (busWrite_eq_error_iff z a v s).not.mp (by simp [hokay])
  constructor
  · intro hlo hhi
    rw [busWrite_idle z a v s _ (okTarget_payWindow s.par z a hok hlo hhi) hb]
    obtain ⟨hin, hout⟩ := read_writeBytes_bytesLE .pay s.pay (a.toNat - 0x100000) z.bytes v
    exact ⟨hin, hout, rfl⟩
  · intro hlo
    rw [busWrite_idle z a v s _ (okTarget_pixWindow s.par z a hok hlo) hb]
    obtain ⟨hin, hout⟩ := read_writeBytes_bytesLE .pix s.pix (a.toNat - 0x800000) z.bytes v
    exact ⟨hin, hout, rfl⟩

/-- The bytes of n bytes read and joined: those of the memory, and 0 above. -/
theorem byteOf_wordLE_readBytes (sp : Config.Space) (m : Memory) (b n k : Nat) (hk : k < 4) :
    byteOf (wordLE (Memory.readBytes sp m b n)) k = if k < n then Memory.read sp m (b + k) else 0 := by
  rw [byteOf_wordLE _ k hk]
  split
  case isTrue hn =>
    have hlen : k < (Memory.readBytes sp m b n).length := by simpa using hn
    rw [List.getD_eq_getElem _ _ hlen, readBytes_getElem]
  case isFalse hn =>
    exact List.getD_eq_default _ _ (by simpa using hn)

/-- Settles O28: the data is the window's bytes joined. -/
theorem windowReadIsLittleEndian : Obligations.WindowReadIsLittleEndian := by
  intro z a s hb hokay
  have hok : okTarget s.par z a ≠ none := (busRead_eq_error_iff z a s).not.mp hokay
  constructor
  · intro hlo hhi k hk
    rw [busRead_idle z a s _ (okTarget_payWindow s.par z a hok hlo hhi) hb]
    exact byteOf_wordLE_readBytes .pay s.pay (a.toNat - 0x100000) z.bytes k hk
  · intro hlo k hk
    rw [busRead_idle z a s _ (okTarget_pixWindow s.par z a hok hlo) hb]
    exact byteOf_wordLE_readBytes .pix s.pix (a.toNat - 0x800000) z.bytes k hk

end Sys2Proof.Machine
end

section
/-! PROOFS. What commands write into the memories, and that every step keeps the invariant (20_memory.md R62 to
R66, 44_commands.md R170, R171, 60_exceptions.md R201, R204). -/

namespace Sys2Proof.Machine

/-! ## Pixels that fit the image -/

/-- The pixels gs, written from logical index 0 on, fit the image of s: the image is legal, it has a pixel for
each of them, and each has the image's channels. Every run of pixels that a command or `rst` writes does. -/
structure FitsImage (s : State) (gs : List (List Byte)) : Prop where
  /-- The image is legal (10_state.md R41). -/
  img : s.ImgOK
  /-- There are no more pixels than the image has. -/
  count : gs.length ≤ s.numPixels
  /-- Each pixel has the image's channels. -/
  row : ∀ g ∈ gs, g.length = s.imgChannels

/-- ENCODE packs only what fits: its checks compare the channels, and the pixels needed with N. -/
theorem encodePixels_fitsImage (s : State) (h : encodeCheck s = none) : FitsImage s (encodePixels s) := by
  unfold encodeCheck at h
  split_ifs at h with hcfg hch hempty hmax hn
  simp only [not_or, not_not] at hcfg hch
  obtain ⟨⟨himg, hcodec⟩, -⟩ := hcfg
  refine ⟨himg, ?_, fun g hg => ?_⟩
  · rw [encodePixels_length, State.paddedFrameLength]
    omega
  · rw [encodePixels_row s hcodec g hg, hch]

theorem fillCheck_eq_none_iff (s : State) : fillCheck s = none ↔ s.ImgOK := by
  simp only [fillCheck, ite_eq_left_iff, reduceCtorEq, imp_false, not_not]

/-- FILL writes each pixel of the image once. -/
theorem fillPixels_fitsImage (s : State) (h : fillCheck s = none) : FitsImage s
    (List.replicate s.numPixels (bytesLE s.imgChannels s.regs.fillColor)) := by
  refine ⟨(fillCheck_eq_none_iff s).mp h, by simp, fun g hg => ?_⟩
  rw [List.eq_of_mem_replicate hg, bytesLE_length]

/-- The last byte of a pixel of the image lies in the image's words. -/
theorem baseAt_add_four_le (s : State) (i : Nat) (hi : i < s.numPixels) :
    baseAt s.width i + 4 ≤ 4 * s.numPixels := by
  have hlt : wordAt s.width i < s.numPixels := wordAt_lt s.width s.height i hi
  rw [baseAt_eq]
  omega

/-- Writing pixels that fit the image keeps PIXMEM canonical and inside its depth. -/
theorem FitsImage.wf_putPixels {s : State} {gs : List (List Byte)} (h : FitsImage s gs)
    (hm : Memory.wf (4 * s.par.pixDepth) s.pix) :
    Memory.wf (4 * s.par.pixDepth) (putPixels s.width s.pix 0 gs) := by
  obtain ⟨⟨⟨-, -, hdepth⟩, hch⟩, hcount, hrow⟩ := h
  refine Machine.wf_putPixels _ _ gs s.pix 0 hm fun n hn => ?_
  have hlast := baseAt_add_four_le s (0 + n) (by omega)
  have hlen := hrow _ (List.getElem_mem hn)
  omega

/-- Writing pixels that fit the image leaves every byte past the image alone. -/
theorem FitsImage.read_past_image {s : State} {gs : List (List Byte)} (h : FitsImage s gs) (b : Nat)
    (hb : 4 * s.numPixels ≤ b) :
    Memory.read .pix (putPixels s.width s.pix 0 gs) b = Memory.read .pix s.pix b := by
  obtain ⟨⟨-, hch⟩, hcount, hrow⟩ := h
  refine read_putPixels_outside s.width gs s.pix 0 b fun n hn => .inr ?_
  have hlast := baseAt_add_four_le s (0 + n) (by omega)
  have hlen := hrow _ (List.getElem_mem hn)
  omega

/-- Writing pixels that fit a 3-channel image leaves channel 3 of every word alone (20_memory.md R65). -/
theorem FitsImage.read_channel_three {s : State} {gs : List (List Byte)} (h : FitsImage s gs)
    (h3 : s.imgChannels = 3) (j : Nat) :
    Memory.read .pix (putPixels s.width s.pix 0 gs) (4 * j + 3) = Memory.read .pix s.pix (4 * j + 3) := by
  refine read_putPixels_outside s.width gs s.pix 0 _ fun n hn => ?_
  have hlen := h.row _ (List.getElem_mem hn)
  rw [baseAt_eq]
  omega

/-! ## The memories a command writes -/

/-- What a command does to PIXMEM: only ENCODE and FILL write it, with pixels that fit the image. -/
theorem exec_pix_cases (i : Instr) (s t : State) (h : exec i s = .next t) :
    t.pix = s.pix ∨ ((i = .encode ∨ i = .fill) ∧
      ∃ gs, FitsImage s gs ∧ t.pix = putPixels s.width s.pix 0 gs) := by
  rcases exec_cases i s t h with ⟨e, rfl, -⟩ | ⟨rfl, hc, rfl⟩ | ⟨-, -, rfl⟩ | ⟨rfl, hc, rfl⟩ |
    ⟨-, -, v, rfl⟩ | ⟨-, -, v, rfl⟩ | ⟨-, -, rfl⟩ | ⟨-, rfl⟩
  · exact .inl rfl
  · exact .inr ⟨.inl rfl, _, encodePixels_fitsImage s hc, rfl⟩
  · exact .inl rfl
  · exact .inr ⟨.inr rfl, _, fillPixels_fitsImage s hc, rfl⟩
  all_goals exact .inl rfl

/-- What a command does to PAYMEM: only DECODE writes it, when its checks have passed. -/
theorem exec_pay_cases (i : Instr) (s t : State) (h : exec i s = .next t) :
    t.pay = s.pay ∨ (i = .decode ∧ decodeCheck s = none ∧
      t.pay = Memory.writeBytes s.pay 0 ((decodeFrame s).drop s.fixedPart)) := by
  rcases exec_cases i s t h with ⟨e, rfl, -⟩ | ⟨-, -, rfl⟩ | ⟨rfl, hc, rfl⟩ | ⟨-, -, rfl⟩ |
    ⟨-, -, v, rfl⟩ | ⟨-, -, v, rfl⟩ | ⟨-, -, rfl⟩ | ⟨-, rfl⟩
  · exact .inl rfl
  · exact .inl rfl
  · exact .inr ⟨rfl, hc, rfl⟩
  all_goals exact .inl rfl

/-- Settles O37: a command that writes PIXMEM writes pixels that fit the image. -/
theorem commandsWriteOnlyTheImage : Obligations.CommandsWriteOnlyTheImage := by
  intro i s t h
  refine ⟨fun hdecode => ?_, ?_⟩
  · rcases exec_pay_cases i s t h with hpay | ⟨hi, -⟩
    · exact hpay
    · exact absurd hi hdecode
  · rcases exec_pix_cases i s t h with hpix | ⟨hi, gs, hfit, hpix⟩
    · simp only [State.pixByte, hpix, implies_true, and_self]
    · refine ⟨fun hencode hfill => (hi.elim hencode hfill).elim, ?_⟩
      simp only [State.pixByte, hpix]
      exact ⟨hfit.read_past_image, hfit.read_channel_three⟩

/-! ## Commands keep the invariant -/

/-- A payload DECODE accepts fits in PAYMEM. -/
theorem payload_le_of_decodeCheck (s : State) (h : decodeCheck s = none) :
    decodeLength s - s.fixedPart ≤ s.par.payDepth := by
  unfold decodeCheck at h
  split_ifs at h with hcfg hch havail hhdr hover hshort
  exact Nat.le_of_not_lt hover

/-- No check of a command answers InvalidIdentifier, so no command ends with it (60_exceptions.md R201). -/
theorem exec_error_ne_invalidIdentifier (i : Instr) (s t : State) (h : exec i s = .next t) :
    t.status.error ≠ some .invalidIdentifier := by
  rcases exec_cases i s t h with ⟨e, rfl, hcheck⟩ | ⟨-, -, rfl⟩ | ⟨-, -, rfl⟩ | ⟨-, -, rfl⟩ |
    ⟨-, -, v, rfl⟩ | ⟨-, -, v, rfl⟩ | ⟨-, -, rfl⟩ | ⟨-, rfl⟩
  · intro he
    obtain rfl : e = .invalidIdentifier := Option.some.inj he
    rcases hcheck with ⟨-, hc⟩ | ⟨-, hc⟩ | ⟨-, hc⟩ | ⟨-, hc⟩ | ⟨-, hc⟩ | ⟨-, hc⟩
    · unfold encodeCheck at hc
      split_ifs at hc <;> cases hc
    · unfold decodeCheck at hc
      split_ifs at hc <;> cases hc
    · unfold fillCheck at hc
      split_ifs at hc
      cases hc
    · unfold addrCheck at hc
      split_ifs at hc <;> cases hc
    · unfold indexCheck at hc
      split_ifs at hc <;> cases hc
    · unfold capacityCheck at hc
      split_ifs at hc
      cases hc
  all_goals exact nofun

/-- The parameters, canonical memories and error code of an IDLE state are all the invariant asks of it. -/
theorem Inv.of_idle {s : State} (hidle : s.busy = false) (hlegal : s.par.Legal)
    (hpix : Memory.wf (4 * s.par.pixDepth) s.pix) (hpay : Memory.wf s.par.payDepth s.pay)
    (herr : s.status.error ≠ some .invalidIdentifier) : Inv s where
  legal := hlegal
  pixWf := hpix
  payWf := hpay
  busyClean hbusy := absurd hbusy (by simp [hidle])
  noInvalidId := herr
  withinLatMax _ _ hbusy := absurd hbusy (by simp [hidle])

theorem exec_par (i : Instr) (s t : State) (h : exec i s = .next t) : t.par = s.par := by
  rcases exec_cases i s t h with ⟨e, rfl, -⟩ | ⟨-, -, rfl⟩ | ⟨-, -, rfl⟩ | ⟨-, -, rfl⟩ |
    ⟨-, -, v, rfl⟩ | ⟨-, -, v, rfl⟩ | ⟨-, -, rfl⟩ | ⟨-, rfl⟩ <;> rfl

/-- A command leaves the engine IDLE, and its checks bound what it writes. -/
theorem exec_keeps_inv (i : Instr) (s t : State) (hs : Inv s) (h : exec i s = .next t) : Inv t := by
  have hpar := exec_par i s t h
  refine .of_idle (exec_idle i s t h) (hpar ▸ hs.legal) ?_ ?_ (exec_error_ne_invalidIdentifier i s t h)
  · rw [hpar]
    rcases exec_pix_cases i s t h with hpix | ⟨-, gs, hfit, hpix⟩
    · exact hpix ▸ hs.pixWf
    · exact hpix ▸ hfit.wf_putPixels hs.pixWf
  · rw [hpar]
    rcases exec_pay_cases i s t h with hpay | ⟨-, hc, hpay⟩
    · exact hpay ▸ hs.payWf
    · rw [hpay]
      have hle := payload_le_of_decodeCheck s hc
      exact wf_writeBytes _ _ s.pay 0 hs.payWf (by simpa [decodeFrame] using hle)

/-! ## Host accesses keep the invariant -/

/-- The invariant does not speak of the host, the schedule, the registers or the draws. -/
theorem Inv.congr {s t : State} (hs : Inv s) (hpar : t.par = s.par) (hstatus : t.status = s.status)
    (heng : t.eng = s.eng) (hpix : t.pix = s.pix) (hpay : t.pay = s.pay) (hwaited : t.waited = s.waited) :
    Inv t := by
  have hbusy : t.busy = s.busy := by rw [State.busy, State.busy, heng]
  constructor
  · rw [hpar]; exact hs.legal
  · rw [hpar, hpix]; exact hs.pixWf
  · rw [hpar, hpay]; exact hs.payWf
  · rw [hbusy, hstatus]; exact hs.busyClean
  · rw [hstatus]; exact hs.noInvalidId
  · rw [hpar, hbusy, hwaited]; exact hs.withinLatMax

/-- A write to a register while IDLE keeps the invariant: to STATUS it clears bits, to CMD it starts a command
with DONE = 0, no error and no turn waited, elsewhere it writes the register file. -/
theorem writeReg_keeps_inv (s : State) (off : Nat) (v : Word) (hs : Inv s) (hb : s.busy = false) :
    Inv (s.writeReg off v) := by
  rcases writeReg_cases s off v with h | h | h
  · rw [h]
    exact .of_idle hb hs.legal hs.pixWf hs.payWf hs.noInvalidId
  · rw [h]
    exact ⟨hs.legal, hs.pixWf, hs.payWf, fun _ => ⟨rfl, rfl⟩, nofun, fun n _ _ => Nat.zero_le n⟩
  · rw [h]
    exact hs.congr rfl rfl rfl rfl rfl rfl

/-- An OKAY write while IDLE keeps the invariant: a window write stays inside its memory's depth. -/
theorem writeTarget_keeps_inv (z : Size) (a : BusAddr) (v : Word) (s : State) (t : Target) (hs : Inv s)
    (hb : s.busy = false) (ht : okTarget s.par z a = some t) : Inv (writeTarget z v s t) := by
  obtain ⟨-, ⟨rfl, -, -⟩ | ⟨rfl, -, -, hfit⟩ | ⟨rfl, -, hfit⟩⟩ := okTarget_cases s.par z a t ht
  · exact writeReg_keeps_inv s a.toNat v hs hb
  · have hpay := wf_writeBytes s.par.payDepth (bytesLE z.bytes v) s.pay _ hs.payWf (by simpa using hfit)
    exact .of_idle hb hs.legal hs.pixWf hpay hs.noInvalidId
  · have hpix := wf_writeBytes (4 * s.par.pixDepth) (bytesLE z.bytes v) s.pix _ hs.pixWf
      (by simpa using hfit)
    exact .of_idle hb hs.legal hpix hs.payWf hs.noInvalidId

theorem busWrite_idle_keeps_inv (z : Size) (a : BusAddr) (v : Word) (s : State) (hs : Inv s)
    (hb : s.busy = false) : Inv (busWrite z a v s).2 := by
  rcases busWrite_cases z a v s with ⟨-, hw⟩ | ⟨t, -, hbusy, -⟩ | ⟨t, ht, -, hw⟩
  · rw [hw]
    exact hs
  · simp [hb] at hbusy
  · rw [hw]
    exact writeTarget_keeps_inv z a v s t hs hb ht

/-- A host turn while IDLE is at most one access, which keeps the invariant. -/
theorem hostTurn_idle_keeps_inv (s : State) (hs : Inv s) (hb : s.busy = false) : Inv (hostTurn s) := by
  obtain ⟨h, n, hn, hc⟩ := hostTurn_cases s
  obtain rfl : n = s.waited := by simpa [hb] using hn
  have hs1 : ∀ held : HostSide, Inv { s with host := held } := fun _ => hs.congr rfl rfl rfl rfl rfl rfl
  rcases hc with hc | ⟨z, a, v, held, hc⟩ | ⟨z, a, held, hc⟩
  · exact hc ▸ hs1 h
  · rw [hc]
    exact (busWrite_idle_keeps_inv z a v { s with host := held } (hs1 held) hb).congr rfl rfl rfl rfl rfl rfl
  · rw [hc, busRead_idle_state z a { s with host := held } hb]
    exact hs1 h

/-- A host turn while BUSY changes no more of what the invariant speaks of than WIGN and the count of turns
waited, which stays within LAT_MAX if it was below it. -/
theorem hostTurn_busy_keeps_inv (s : State) (hs : Inv s) (hb : s.busy = true)
    (hlat : ∀ n, s.par.latMax = some n → s.waited < n) : Inv (hostTurn s) := by
  obtain ⟨h, d, st, ht, hst⟩ := hostTurn_busy s hb
  have hkept : st.done = s.status.done ∧ st.error = s.status.error := by
    rcases hst with rfl | rfl <;> exact ⟨rfl, rfl⟩
  obtain ⟨hdone, herror⟩ := hkept
  rw [ht]
  refine ⟨hs.legal, hs.pixWf, hs.payWf, fun _ => ?_, ?_, fun n hn _ => hlat n hn⟩
  · obtain ⟨hclean, hnone⟩ := hs.busyClean hb
    exact ⟨hdone.trans hclean, herror.trans hnone⟩
  · intro he
    exact hs.noInvalidId (herror.symm.trans he)

/-- The host takes a turn while BUSY only if the command is not overdue (log 5). -/
theorem waited_lt_of_nextTurn_host (s : State) (hn : nextTurn s = .host) (hb : s.busy = true) (n : Nat)
    (hlat : s.par.latMax = some n) : s.waited < n := by
  unfold nextTurn at hn
  split at hn
  · simp [hb] at hn
  · cases hn
  · cases hn
  · simpa [overdue, hb, hlat] using hn

/-! ## `rst` keeps the invariant -/

/-- Fresh draws go only where the abandoned command's checks let it write (70_reset_and_hazards.md R234,
log 9). -/
theorem freshPixels_fitsImage (s : State) (n : Nat) (h : writeSet s = .pixels n) :
    FitsImage s (freshPixels s.imgChannels s.draws n) := by
  have hrow : ∀ g ∈ freshPixels s.imgChannels s.draws n, g.length = s.imgChannels := by
    intro g hg
    obtain ⟨k, -, rfl⟩ := List.mem_map.mp hg
    exact bytesLE_length _ _
  unfold writeSet at h
  split at h
  · split_ifs at h with hc
    obtain ⟨himg, hcount, -⟩ := encodePixels_fitsImage s hc
    obtain rfl := WriteSet.pixels.inj h
    rw [encodePixels_length] at hcount
    exact ⟨himg, by rwa [freshPixels_length], hrow⟩
  · split_ifs at h with hc
    obtain rfl := WriteSet.pixels.inj h
    exact ⟨(fillCheck_eq_none_iff s).mp hc, by rw [freshPixels_length], hrow⟩
  · split_ifs at h
  · cases h

theorem payload_le_of_writeSet (s : State) (n : Nat) (h : writeSet s = .payload n) : n ≤ s.par.payDepth := by
  unfold writeSet at h
  split at h
  · split_ifs at h
  · split_ifs at h
  · split_ifs at h with hc
    obtain rfl := WriteSet.payload.inj h
    exact payload_le_of_decodeCheck s hc
  · cases h

theorem abandon_keeps_inv (s : State) (hs : Inv s) : Inv s.abandon := by
  rcases abandon_cases s with ⟨-, h⟩ | ⟨n, hw, h⟩ | ⟨n, hw, h⟩
  · rw [h]
    exact hs
  · rw [h]
    exact { hs with pixWf := (freshPixels_fitsImage s n hw).wf_putPixels hs.pixWf }
  · rw [h]
    have hle := payload_le_of_writeSet s n hw
    exact { hs with payWf := wf_writeBytes _ _ s.pay 0 hs.payWf (by simpa using hle) }

theorem hardReset_keeps_inv (s : State) (hs : Inv s) : Inv (hardReset s) := by
  have hmem : Inv (if s.busy then s.abandon else s) := by
    split
    · exact abandon_keeps_inv s hs
    · exact hs
  exact .of_idle (hardReset_busy s) hmem.legal hmem.pixWf hmem.payWf nofun

/-! ## Every step keeps the invariant -/

/-- Settles O9: one lemma for each kind of turn, over the turns `step_cases` tells apart. -/
theorem stepKeepsInv : Obligations.StepKeepsInv := by
  intro s t hs h
  have hspent : Inv (spendTurn s) := hs.congr rfl rfl rfl rfl rfl rfl
  rcases step_cases s t h with ⟨-, -, i, -, hi⟩ | ⟨-, -, -, rfl⟩ | ⟨-, -, rfl⟩ | ⟨hn, rfl⟩ | ⟨-, rfl⟩
  · exact exec_keeps_inv i (spendTurn s) t hspent hi
  · exact .of_idle rfl hs.legal hs.pixWf hs.payWf nofun
  · exact hspent
  · cases hb : s.busy
    · exact hostTurn_idle_keeps_inv (spendTurn s) hspent hb
    · exact hostTurn_busy_keeps_inv (spendTurn s) hspent hb (waited_lt_of_nextTurn_host s hn hb)
  · exact hardReset_keeps_inv (spendTurn s) hspent

end Sys2Proof.Machine
end

section
/-! PROOFS. The decoder: a command word is its MBZ and its OP, and it is accepted exactly when it is the word of a
command (30_encoding.md R90, R91, R94). -/

namespace Sys2Proof

/-! ## The two fields of a command word -/

@[simp] theorem mbzField_toNat (w : Word) : (mbzField w).toNat = w.toNat / 256 := by
  simp only [mbzField, BitVec.extractLsb'_toNat, Nat.shiftRight_eq_div_pow]
  omega

@[simp] theorem opField_toNat (w : Word) : (opField w).toNat = w.toNat % 256 := by
  simp [opField]

theorem mbzIsZero_iff (w : Word) : mbzIsZero w = true ↔ mbzField w = 0 := by
  simp [mbzIsZero, ← BitVec.toNat_inj, Nat.shiftRight_eq_div_pow]

theorem toNat_eq_opField_of_mbz_zero (w : Word) (h : mbzField w = 0) : w.toNat = (opField w).toNat := by
  have hmbz : w.toNat / 256 = 0 := by rw [← mbzField_toNat, h]; rfl
  rw [opField_toNat]
  omega

/-! ## The opcode map -/

/-- The opcode map takes OP to i only where OP is the number that i's word stands for. -/
theorem encode_toNat_of_ofOpcode {n : Nat} {i : Instr} (h : ofOpcode n = .ok i) : (encode i).toNat = n := by
  unfold ofOpcode at h
  split at h <;> cases h <;> rfl

theorem exists_ofOpcode_iff (n : Nat) : (∃ i, ofOpcode n = .ok i) ↔ 1 ≤ n ∧ n ≤ 7 := by
  constructor
  · rintro ⟨i, h⟩
    rw [← encode_toNat_of_ofOpcode h]
    cases i <;> decide
  · rintro ⟨hlow, hhigh⟩
    interval_cases n <;> exact ⟨_, rfl⟩

theorem opIsAssigned_iff (w : Word) :
    opIsAssigned w = true ↔ ∃ i, ofOpcode (opField w).toNat = .ok i := by
  rw [exists_ofOpcode_iff, opField_toNat]
  simp [opIsAssigned]

/-! ## The decoder -/

theorem decode_of_mbz_zero (w : Word) (h : mbzField w = 0) : decode w = ofOpcode (opField w).toNat :=
  if_pos h

theorem decode_of_mbz_ne_zero (w : Word) (h : mbzField w ≠ 0) : decode w = .error .mbzNotZero :=
  if_neg h

theorem decode_eq_ok_iff_fields (w : Word) (i : Instr) :
    decode w = .ok i ↔ mbzField w = 0 ∧ ofOpcode (opField w).toNat = .ok i := by
  by_cases h : mbzField w = 0
  · simp [decode_of_mbz_zero w h, h]
  · simp only [decode_of_mbz_ne_zero w h, h, reduceCtorEq, false_and]

/-- The accepted words are the well-formed ones: field by field, the two say the same. -/
theorem commandWordWf_iff (w : Word) : commandWordWf w = true ↔ ∃ i, decode w = .ok i := by
  simp only [commandWordWf, Bool.and_eq_true, mbzIsZero_iff, opIsAssigned_iff, decode_eq_ok_iff_fields,
    exists_and_left]

@[simp] theorem decode_encode (i : Instr) : decode (encode i) = .ok i := by
  cases i <;> rfl

/-- With MBZ zero, OP is the whole word, so a word is accepted as i only if it is the word of i. -/
theorem encode_of_decode {w : Word} {i : Instr} (h : decode w = .ok i) : encode i = w := by
  obtain ⟨hmbz, hop⟩ := (decode_eq_ok_iff_fields w i).mp h
  apply BitVec.eq_of_toNat_eq
  rw [encode_toNat_of_ofOpcode hop, toNat_eq_opField_of_mbz_zero w hmbz]

theorem decode_eq_ok_iff (w : Word) (i : Instr) : decode w = .ok i ↔ w = encode i :=
  ⟨fun h => (encode_of_decode h).symm, fun h => h ▸ decode_encode i⟩

/-- Settles O2: the round trips are `decode_encode` and `encode_of_decode`, and acceptance is
`commandWordWf_iff`. -/
theorem decodeAndEncodeAgree : Obligations.DecodeAndEncodeAgree := by
  refine ⟨fun i _ => ⟨decode_encode i, ?_⟩, fun w i => encode_of_decode, commandWordWf_iff⟩
  exact (commandWordWf_iff _).mpr ⟨i, decode_encode i⟩

/-- Settles O1: the opcode map lists each command with its word. -/
theorem decodeSelectsExactlyTheOpcodeMap : Obligations.DecodeSelectsExactlyTheOpcodeMap := by
  intro w i
  rw [decode_eq_ok_iff]
  cases i <;> simp [encode]

/-- Settles O3: three words of commands, two whose OP is outside the map, and one whose MBZ is 1. -/
theorem sampleWordsDecode : Obligations.SampleWordsDecode :=
  ⟨decode_encode .encode, decode_encode .decode, decode_encode .sreset,
    decode_of_mbz_zero _ (by decide), decode_of_mbz_zero _ (by decide),
    decode_of_mbz_ne_zero _ (by decide)⟩

end Sys2Proof
end

section
/-! PROOFS. The host: one instruction a turn, each one bus access, and the pseudo-instructions RUN and WAIT
(30_encoding.md R98, R99). -/

namespace Sys2Proof.Machine

/-! ## The host's turn -/

theorem step_of_nextTurn_host (s : State) (h : nextTurn s = .host) :
    step s = .next (hostTurn (spendTurn s)) := by
  simp only [step, takeTurn, h]

/-- With an instruction at the head of its program, the host performs it, and a turn while BUSY is counted. -/
theorem hostTurn_of_prog_cons (s : State) (op : HostOp) (rest : List HostOp)
    (h : s.host.prog = op :: rest) :
    hostTurn s = hostOp op rest { s with waited := if s.busy then s.waited + 1 else s.waited } := by
  unfold hostTurn
  simp only [h]
  split <;> rfl

/-- The state in which the host's next access is made: the turn is used up and counted. -/
def atAccess (s : State) : State :=
  { spendTurn s with waited := if s.busy then s.waited + 1 else s.waited }

theorem step_host_instruction (s : State) (op : HostOp) (rest : List HostOp) (hn : nextTurn s = .host)
    (hp : s.host.prog = op :: rest) : step s = .next (hostOp op rest (atAccess s)) := by
  rw [step_of_nextTurn_host s hn, hostTurn_of_prog_cons (spendTurn s) op rest hp]
  rfl

/-! ## Stores and loads -/

/-- A store is one bus write; on the host's side only the response changes. -/
theorem hostStore_withHost (z : Size) (a : BusAddr) (v : Word) (s : State) (h : HostSide) :
    hostStore z a v { s with host := h } =
      { (busWrite z a v s).2 with host := { h with reply := some (busWrite z a v s).1 } } := by
  simp only [hostStore, busWrite_host]

/-- A load is one bus read; on the host's side the response changes, and the name loaded. -/
theorem hostLoad_withHost (z : Size) (r : Nat) (a : BusAddr) (s : State) (h : HostSide) :
    hostLoad z r a { s with host := h } =
      { (busRead z a s).2 with
        host := ({ h with reply := some (busRead z a s).1 } : HostSide).setVar r
          (zeroExtend z (busRead z a s).1.data) } := by
  simp only [hostLoad, busRead_host]

theorem zeroExtend_toNat (z : Size) (d : Word) : (zeroExtend z d).toNat = d.toNat % 2 ^ (8 * z.bytes) := by
  cases z with
  | byte | half =>
    simp only [zeroExtend, Size.bytes, BitVec.toNat_setWidth]
    omega
  | word => simpa [zeroExtend, Size.bytes] using (Nat.mod_eq_of_lt d.isLt).symm

/-- An instruction that is a store takes one bus write and changes no name. -/
theorem step_store {s : State} {op : HostOp} {rest : List HostOp} {z : Size} {a : BusAddr} {v : Word}
    (hn : nextTurn s = .host) (hp : s.host.prog = op :: rest)
    (hop : hostOp op rest (atAccess s) =
      hostStore z a v { atAccess s with host := { s.host with prog := rest } }) :
    step s = .next { (busWrite z a v (atAccess s)).2 with
      host := { s.host with prog := rest, reply := some (busWrite z a v (atAccess s)).1 } } := by
  rw [step_host_instruction s op rest hn hp, hop, hostStore_withHost]

/-- An instruction that is a load takes one bus read and changes only the name it loads. -/
theorem step_load {s : State} {op : HostOp} {rest : List HostOp} {z : Size} {r : Nat} {a : BusAddr}
    (hn : nextTurn s = .host) (hp : s.host.prog = op :: rest)
    (hop : hostOp op rest (atAccess s) =
      hostLoad z r a { atAccess s with host := { s.host with prog := rest } }) :
    ∃ h : HostSide, step s = .next { (busRead z a (atAccess s)).2 with host := h } ∧ h.prog = rest ∧
      h.reply = some (busRead z a (atAccess s)).1 ∧
      (h.value r).toNat = (busRead z a (atAccess s)).1.data.toNat % 2 ^ (8 * z.bytes) ∧
      ∀ q, q ≠ r → h.value q = s.host.value q := by
  rw [step_host_instruction s op rest hn hp, hop, hostLoad_withHost]
  refine ⟨_, rfl, rfl, rfl, ?_, fun q hq => value_setVar_other _ r q _ hq⟩
  rw [value_setVar_same, zeroExtend_toNat]

/-- Settles O29: three instructions are stores and three are loads, by `hostOp`'s own arms. -/
theorem hostInstructionsAreOneAccess : Obligations.HostInstructionsAreOneAccess := by
  intro s rest hn
  exact ⟨fun _ _ hp => step_store hn hp rfl, fun _ _ hp => step_store hn hp rfl,
    fun _ _ hp => step_store hn hp rfl, fun _ _ hp => step_load hn hp rfl,
    fun _ _ hp => step_load hn hp rfl, fun _ _ hp => step_load hn hp rfl⟩

/-! ## WAIT -/

/-- WAIT reads STATUS, which is readable while BUSY, and stays at the head of the program while bit 0, which
is BUSY, is set. -/
theorem hostOp_wait (r : Nat) (rest : List HostOp) (s : State) : hostOp (.wait r) rest s =
    { s with host := ({ s.host with
        prog := if s.busy then .wait r :: rest else rest
        reply := some (.okayRead s.statusWord) } : HostSide).setVar r s.statusWord } := by
  have hload : hostLoad .word r statusAddr { s with host := { s.host with prog := rest } } =
      { s with host := ({ s.host with
        prog := rest
        reply := some (.okayRead s.statusWord) } : HostSide).setVar r s.statusWord } := by
    rw [hostLoad_withHost, statusAddr, busRead_status]
    rfl
  have hbit : s.statusWord.getLsbD 0 = s.busy := statusWord_getLsbD s 0 (by decide)
  simp only [hostOp, hload, value_setVar_same, hbit]
  cases s.busy <;> rfl

/-- Settles O30: the step is `hostOp_wait`, and loading a name changes no other. -/
theorem waitPollsStatus : Obligations.WaitPollsStatus := by
  intro s r rest hn hp
  refine ⟨_, (step_host_instruction s _ rest hn hp).trans (congrArg _ (hostOp_wait r rest (atAccess s))),
    value_setVar_same _ r _, fun q hq => value_setVar_other _ r q _ hq, rfl, rfl, rfl, rfl, rfl, rfl, rfl,
    rfl⟩

/-! ## RUN -/

/-- A store to CMD while IDLE is OKAY and starts the command word (44_commands.md R170). -/
theorem busWrite_cmd_idle (s : State) (v : Word) (hb : s.busy = false) :
    busWrite .word cmdAddr v s = (.okayWrite, s.accept v) :=
  busWrite_register_idle s cmdAddr v hb (by decide) (by decide)

/-- With nothing scheduled, an IDLE engine leaves the turn to the host. -/
theorem nextTurn_of_idle (s : State) (hb : s.busy = false) (hs : s.sched = []) : nextTurn s = .host := by
  simp [nextTurn, hs, hb]

/-- With nothing scheduled, a BUSY engine performs the command it holds, and no turn is used up. -/
theorem step_of_busy_of_decode (s : State) (i : Instr) (hb : s.busy = true) (hs : s.sched = [])
    (hd : decode s.eng.op = .ok i) : step s = exec i s := by
  have hspent : spendTurn s = s := by
    rw [spendTurn, hs, List.tail_nil, ← hs]
  have hn : nextTurn s = .engine := by
    simp [nextTurn, hs, hb]
  simp only [step, takeTurn, hn, hspent, engineTurn, hb, if_true, fetchWord, hd]

/-- Settles O6: the store to CMD makes the engine BUSY with the word of the command, which decodes to it. -/
theorem runStartsAndCompletesTheCommand : Obligations.RunStartsAndCompletesTheCommand := by
  intro s i rest hb hs hp
  have hstep := step_host_instruction s _ rest (nextTurn_of_idle s hb hs) hp
  have haccept : hostOp (.sw cmdAddr (encode i)) rest (atAccess s) =
      { (atAccess s).accept (encode i) with
        host := { s.host with prog := rest, reply := some .okayWrite } } := by
    refine (hostStore_withHost .word cmdAddr (encode i) (atAccess s) _).trans ?_
    rw [busWrite_cmd_idle (atAccess s) (encode i) hb]
    rfl
  rw [haccept] at hstep
  refine ⟨_, hstep, rfl, rfl, rfl, rfl, rfl, rfl, rfl, ?_⟩
  refine step_of_busy_of_decode _ i rfl ?_ (decode_encode i)
  simp [atAccess, hs]

end Sys2Proof.Machine
end

section
/-! PROOFS. The scan order, the capacities, and the commands that answer them: ADDR, INDEX, CAPACITY, and how long a
frame ENCODE accepts (40_scan_order.md R110 to R116, 44_commands.md R178). -/

namespace Sys2Proof.Machine

/-! ## The scan order and its inverse -/

theorem address_indexOf (w x y : Nat) (hx : x < w) : address w (indexOf w x y) = (x, y) := by
  have hcol : w - 1 - x < w := by omega
  have hmod : indexOf w x y % w = w - 1 - x := by
    rw [indexOf, Nat.mul_comm, Nat.mul_add_mod, Nat.mod_eq_of_lt hcol]
  have hdiv : indexOf w x y / w = y := by
    rw [indexOf, Nat.mul_comm, Nat.mul_add_div (by omega), Nat.div_eq_of_lt hcol, Nat.add_zero]
  rw [address, hmod, hdiv, show w - 1 - (w - 1 - x) = x by omega]

theorem indexOf_address (w i : Nat) (hw : 0 < w) : indexOf w (address w i).1 (address w i).2 = i := by
  have hmod : i % w < w := Nat.mod_lt i hw
  calc i / w * w + (w - 1 - (w - 1 - i % w)) = w * (i / w) + i % w := by rw [Nat.mul_comm]; omega
    _ = i := Nat.div_add_mod i w

theorem address_fst_lt (w i : Nat) (hw : 0 < w) : (address w i).1 < w := by
  simp only [address]
  omega

theorem address_snd_lt (w h i : Nat) (hi : i < w * h) : (address w i).2 < h :=
  Nat.div_lt_of_lt_mul hi

/-- The indices of a row end before the next row's begin. -/
theorem indexOf_lt_of_row_lt (w x x' y y' : Nat) (hx : x < w) (hy : y < y') :
    indexOf w x y < indexOf w x' y' := by
  have hrow : (y + 1) * w ≤ y' * w := Nat.mul_le_mul_right w hy
  rw [Nat.add_mul, Nat.one_mul] at hrow
  simp only [indexOf]
  omega

/-- Inside a row the index rises from right to left. -/
theorem indexOf_lt_of_col_lt (w x x' y : Nat) (hx : x < w) (h : x' < x) :
    indexOf w x y < indexOf w x' y := by
  simp only [indexOf]
  omega

/-- The image holds the rows above h: an index is below that of the last column of row h. -/
theorem indexOf_lt (w h x y : Nat) (hx : x < w) (hy : y < h) : indexOf w x y < w * h := by
  have hnext := indexOf_lt_of_row_lt w x (w - 1) y h hx hy
  have hend : indexOf w (w - 1) h = w * h := by
    rw [indexOf, Nat.sub_self, Nat.add_zero, Nat.mul_comm]
  omega

/-- Settles O38: the inverse laws by division with remainder, the order row by row. -/
theorem scanOrderBijection : Obligations.ScanOrderBijection := by
  intro w h
  refine ⟨fun x hx y hy => ⟨address_indexOf w x y hx, indexOf_lt w h x y hx hy⟩, fun i hi => ?_, ?_⟩
  · have hw : 0 < w := Nat.pos_of_mul_pos_right (Nat.zero_lt_of_lt hi)
    exact ⟨indexOf_address w i hw, address_fst_lt w i hw, address_snd_lt w h i hi⟩
  · rintro x hx x' - y - y' - (hrow | ⟨rfl, hcol⟩)
    · exact indexOf_lt_of_row_lt w x x' y y' hx hrow
    · exact indexOf_lt_of_col_lt w x x' y hx hcol

/-! ## Two coordinates in one register -/

theorem extractLow_of_coordinates (x y : Nat) (hx : x < 65536) :
    ((BitVec.ofNat 32 (y * 65536 + x)).extractLsb' 0 16).toNat = x := by
  simp only [BitVec.extractLsb'_toNat, BitVec.toNat_ofNat, Nat.shiftRight_zero]
  omega

theorem extractHigh_of_coordinates (x y : Nat) (hx : x < 65536) (hy : y < 65536) :
    ((BitVec.ofNat 32 (y * 65536 + x)).extractLsb' 16 16).toNat = y := by
  simp only [BitVec.extractLsb'_toNat, BitVec.toNat_ofNat, Nat.shiftRight_eq_div_pow]
  omega

@[simp] theorem argIndex_eq (s : State) : s.argIndex = s.regs.arg.toNat := rfl

@[simp] theorem argX_eq (s : State) : s.argX = s.regs.arg.toNat % 65536 := by
  simp [State.argX]

@[simp] theorem argY_eq (s : State) : s.argY = s.regs.arg.toNat / 65536 := by
  have := s.regs.arg.isLt
  simp only [State.argY, BitVec.extractLsb'_toNat, Nat.shiftRight_eq_div_pow]
  omega

/-! ## A command whose check is known -/

/-- A command that completes with a value in RES changes RES, the completion flags and the phase alone. -/
theorem setRes_complete_eq (v : Nat) (s : State) : (s.setRes v).complete none = { s with
    regs := { s.regs with res := BitVec.ofNat 32 v }
    status := { s.status with error := none, done := true }
    eng := { s.eng with phase := .idle } } := rfl

theorem exec_addr (s : State) : exec .addr s = .next (s.perform (addrCheck s)
    (State.setRes ((address s.width s.argIndex).2 * 65536 + (address s.width s.argIndex).1))) := rfl

theorem exec_index (s : State) : exec .index s = .next (s.perform (indexCheck s)
    (State.setRes (indexOf s.width s.argX s.argY))) := rfl

theorem exec_capacity (s : State) :
    exec .capacity s = .next (s.perform (capacityCheck s) capacityEffect) := rfl

theorem exec_encode (s : State) : exec .encode s = .next (s.perform (encodeCheck s) encodeEffect) := rfl

/-! ## ADDR -/

/-- Settles O39: the three clauses are the branches of `addrCheck`; the coordinates fit their halves of RES because
W and H have 16 bits. -/
theorem addrResult : Obligations.AddrResult := by
  intro s
  rw [exec_addr, addrCheck, argIndex_eq]
  refine ⟨fun hdim => ?_, fun hdim harg => ?_, fun hdim harg => ?_⟩
  · rw [if_pos hdim, perform_some]
  · rw [if_neg (not_not_intro hdim), if_pos harg, perform_some]
  · rw [if_neg (not_not_intro hdim), if_neg (Nat.not_le_of_lt harg), perform_none]
    obtain ⟨hw, -⟩ := hdim
    have hx := (address_fst_lt s.width s.regs.arg.toNat hw).trans (width_lt s)
    have hy := (address_snd_lt s.width s.height s.regs.arg.toNat harg).trans (height_lt s)
    exact ⟨_, rfl, extractLow_of_coordinates _ _ hx, extractHigh_of_coordinates _ _ hx hy,
      setRes_complete_eq _ s⟩

/-! ## INDEX -/

/-- Settles O40: the three clauses are the branches of `indexCheck`; the index fits in RES because it is below N. -/
theorem indexResult : Obligations.IndexResult := by
  intro s x y
  rw [exec_index, indexCheck, argX_eq, argY_eq]
  refine ⟨fun hdim => ?_, fun hdim hout => ?_, fun hdim hx hy => ?_⟩
  · rw [if_pos hdim, perform_some]
  · rw [if_neg (not_not_intro hdim), if_pos hout, perform_some]
  · rw [if_neg (not_not_intro hdim), if_neg (by omega), perform_none]
    have hfits : indexOf s.width x y < 2 ^ 32 :=
      (indexOf_lt s.width s.height x y hx hy).trans (numPixels_lt s)
    exact ⟨_, rfl, Nat.mod_eq_of_lt hfits, setRes_complete_eq _ s⟩

/-! ## The capacities -/

theorem Codec.OK.ch_eq_three {k : Codec} (hk : k.OK) (hbit : k.bit = true) : k.ch = 3 :=
  hk.1.resolve_right fun h4 => hk.2 ⟨hbit, h4⟩

theorem Codec.ecap_bit {k : Codec} (hbit : k.bit = true) (n : Nat) :
    k.ecap n = min (3 * ((n - 1) / 9)) k.hmax := if_pos hbit

theorem Codec.ecap_byte {k : Codec} (hbyte : k.bit = false) (n : Nat) :
    k.ecap n = min ((n - 1) * k.ch) k.hmax := by
  simp [Codec.ecap, hbyte]

theorem Codec.dcap_bit {k : Codec} (hbit : k.bit = true) (n : Nat) : k.dcap n = (n - 1) / 3 := if_pos hbit

theorem Codec.dcap_byte {k : Codec} (hbyte : k.bit = false) (n : Nat) : k.dcap n = (n - 1) * k.ch := by
  simp [Codec.dcap, hbyte]

theorem Codec.npix_bit {k : Codec} (hbit : k.bit = true) (p : Nat) : k.npix p = 3 * p := if_pos hbit

theorem Codec.npix_byte {k : Codec} (hbyte : k.bit = false) (p : Nat) : k.npix p = p / k.ch := by
  simp [Codec.npix, hbyte]

/-- Settles O42: without the header's bound, bit mode counts the data pixels in nines to encode and in threes to
decode. -/
theorem encodeAndDecodeCapacities : Obligations.EncodeAndDecodeCapacities := by
  intro k n _
  refine ⟨fun hbyte hle => ?_, fun hbit hle => ?_⟩
  · rw [Codec.ecap_byte hbyte, Codec.dcap_byte hbyte, Nat.min_eq_left hle]
  · rw [Codec.ecap_bit hbit, Codec.dcap_bit hbit, Nat.min_eq_left hle]
    omega

/-- The data pixels that a frame of l bytes needs (40_scan_order.md R113): a pixel for each C bytes in byte mode,
nine for each three bytes in bit mode, where C is 3. -/
theorem Codec.npix_paddedLen_le_iff {k : Codec} (hk : k.OK) (l m : Nat) :
    k.npix (paddedLen l k.ch) ≤ m ↔ l ≤ if k.bit then 3 * (m / 9) else m * k.ch := by
  have hc : 0 < k.ch := by
    obtain ⟨hch, -⟩ := hk
    omega
  have hceil (g : Nat) : ceilDiv l k.ch ≤ g ↔ l ≤ k.ch * g := ceilDiv_le_iff_le_mul hc
  rw [paddedLen_eq l k.ch hc]
  cases hb : k.bit with
  | false =>
    rw [Codec.npix_byte hb, Nat.mul_div_cancel_left _ hc, hceil, Nat.mul_comm]
    rfl
  | true =>
    have h9 : 3 * (3 * ceilDiv l 3) ≤ m ↔ ceilDiv l 3 ≤ m / 9 := by omega
    rw [hk.ch_eq_three hb] at hceil ⊢
    rw [Codec.npix_bit hb, h9, hceil]
    rfl

/-- A frame is at most ECAP long exactly when the header holds its length and the image its pixels. -/
theorem Codec.le_ecap_iff {k : Codec} (hk : k.OK) (l n : Nat) (hn : 1 ≤ n) :
    l ≤ k.ecap n ↔ l ≤ k.hmax ∧ 1 + k.npix (paddedLen l k.ch) ≤ n := by
  have hpixels : 1 + k.npix (paddedLen l k.ch) ≤ n ↔ k.npix (paddedLen l k.ch) ≤ n - 1 := by omega
  rw [hpixels, Codec.npix_paddedLen_le_iff hk, And.comm]
  cases hb : k.bit with
  | false => exact Codec.ecap_byte hb n ▸ Nat.le_min
  | true => exact Codec.ecap_bit hb n ▸ Nat.le_min

/-! ## CAPACITY -/

/-- No capacity is above four bytes a pixel. -/
theorem Codec.dcap_le {k : Codec} (hk : k.OK) (n : Nat) : k.dcap n ≤ 4 * n := by
  obtain ⟨hch, -⟩ := hk
  cases hb : k.bit with
  | false =>
    rw [Codec.dcap_byte hb]
    calc (n - 1) * k.ch ≤ n * 4 := Nat.mul_le_mul (by omega) (by omega)
      _ = 4 * n := Nat.mul_comm n 4
  | true =>
    rw [Codec.dcap_bit hb]
    omega

theorem Codec.ecap_le_dcap (k : Codec) (n : Nat) : k.ecap n ≤ k.dcap n := by
  cases hb : k.bit with
  | false =>
    rw [Codec.ecap_byte hb, Codec.dcap_byte hb]
    exact Nat.min_le_left _ _
  | true =>
    rw [Codec.ecap_bit hb, Codec.dcap_bit hb]
    omega

/-- The capacities of a legal image fit in a register, because PIX_DEPTH is at most 2^21 (00_scope.md R6). -/
theorem dcap_numPixels_lt {s : State} (hpar : s.par.Legal) (hdim : s.DimOK) (hk : s.codec.OK) :
    s.codec.dcap s.numPixels < 2 ^ 32 := by
  have hle := Codec.dcap_le hk s.numPixels
  obtain ⟨-, hdepth, -⟩ := hpar
  obtain ⟨-, -, hn⟩ := hdim
  omega

/-- Settles O41: the two clauses are the branches of `capacityCheck`, and both capacities fit in a register. -/
theorem capacityResult : Obligations.CapacityResult := by
  intro s hpar
  rw [exec_capacity]
  refine ⟨fun hill => ?_, fun hdim hk => ?_⟩
  · rw [capacityCheck, if_pos (not_and_or.mp hill), perform_some]
  · rw [capacityCheck, if_neg (not_or.mpr ⟨not_not_intro hdim, not_not_intro hk⟩), perform_none]
    have hdec := dcap_numPixels_lt hpar hdim hk
    have henc := (Codec.ecap_le_dcap s.codec s.numPixels).trans_lt hdec
    refine ⟨_, rfl, (Nat.mod_eq_of_lt henc).trans ?_, Nat.mod_eq_of_lt hdec, rfl⟩
    cases hb : s.pmodeBit with
    | false => exact Codec.ecap_byte hb s.numPixels
    | true =>
      have hbound : s.codec.hmax = 2 ^ 24 - 1 := by rw [Codec.hmax, hk.ch_eq_three hb]
      rw [Codec.ecap_bit hb, hbound]
      rfl

/-! ## ENCODE accepts exactly the frames up to ECAP -/

/-- With a legal configuration and a frame that is not empty, ENCODE checks the frame's length against ECAP. -/
theorem encodeCheck_of_legal {s : State} (himg : s.ImgOK) (hk : s.codec.OK)
    (hpay : s.payloadLen ≤ s.par.payDepth) (hch : s.imgChannels = s.codec.ch) (hlen : 1 ≤ s.frameLength) :
    encodeCheck s =
      if s.frameLength ≤ s.codec.ecap s.numPixels then none else some .capacityExceeded := by
  have ⟨⟨hw, hh, _⟩, _⟩ := himg
  have hn : 1 ≤ s.numPixels := Nat.mul_pos hw hh
  have hiff := Codec.le_ecap_iff hk s.frameLength s.numPixels hn
  have hcfg : ¬(¬(s.ImgOK ∧ s.codec.OK) ∨ s.par.payDepth < s.payloadLen) :=
    not_or.mpr ⟨not_not_intro ⟨himg, hk⟩, Nat.not_lt.mpr hpay⟩
  rw [encodeCheck, if_neg hcfg, if_neg (not_not_intro hch), if_neg (by omega)]
  by_cases hfit : s.frameLength ≤ s.codec.ecap s.numPixels
  · obtain ⟨hheader, hpixels⟩ := hiff.mp hfit
    rw [if_pos hfit, if_neg (by omega), if_neg (by omega)]
  · rw [if_neg hfit]
    split_ifs with hheader hpixels
    · rfl
    · rfl
    · exact absurd (hiff.mpr ⟨by omega, by omega⟩) hfit

/-- Settles O47: the only check left of a legal configuration is the one against ECAP. -/
theorem encodeAcceptsExactlyUpToEcap : Obligations.EncodeAcceptsExactlyUpToEcap := by
  intro s himg hk hpay hch hlen
  rw [exec_encode, encodeCheck_of_legal himg hk hpay hch hlen]
  refine ⟨fun hle => ?_, fun hlt => ?_⟩
  · rw [if_pos hle, perform_none]
    exact ⟨_, rfl, errCode_complete_none _⟩
  · rw [if_neg (Nat.not_le_of_lt hlt), perform_some]

end Sys2Proof.Machine
end

section
/-! PROOFS. What DECODE reads: the header value, and each byte or bit of the frame, channel by channel
(41_header.md R120 to R122, 42_packer.md R134, R138 to R140). -/

namespace Sys2Proof.Machine

/-! ## The header pixel -/

theorem natByte_toNat (n k : Nat) : (natByte n k).toNat = n / 2 ^ (8 * k) % 256 := BitVec.toNat_ofNat ..

theorem hdrParse_three (p : Pixel) :
    hdrParse p 3 = (p.chan 0).toNat * 2 ^ 16 + (p.chan 1).toNat * 2 ^ 8 + (p.chan 2).toNat := rfl

theorem hdrParse_four (p : Pixel) : hdrParse p 4 = (p.chan 3).toNat * 2 ^ 24 + (p.chan 0).toNat * 2 ^ 16
    + (p.chan 1).toNat * 2 ^ 8 + (p.chan 2).toNat := by
  simp only [hdrParse, Pixel.chan, if_true]
  omega

/-- Settles O43: the parser weighs each channel by the place of the header byte the builder put there, so the sum is
the length in base 256. -/
theorem headerRoundTrip : Obligations.HeaderRoundTrip := by
  rintro l c p (rfl | rfl) hl hp
  · have h0 : p.chan 0 = natByte l 2 := hp 0 (by simp [hdrPack])
    have h1 : p.chan 1 = natByte l 1 := hp 1 (by simp [hdrPack])
    have h2 : p.chan 2 = natByte l 0 := hp 2 (by simp [hdrPack])
    rw [hdrParse_three, h0, h1, h2]
    simp only [natByte_toNat]
    omega
  · have h0 : p.chan 0 = natByte l 2 := hp 0 (by simp [hdrPack])
    have h1 : p.chan 1 = natByte l 1 := hp 1 (by simp [hdrPack])
    have h2 : p.chan 2 = natByte l 0 := hp 2 (by simp [hdrPack])
    have h3 : p.chan 3 = natByte l 3 := hp 3 (by simp [hdrPack])
    rw [hdrParse_four, h0, h1, h2, h3]
    simp only [natByte_toNat]
    omega

/-! ## The bytes of the frame -/

/-- The eight bits that three pixels carry: bit n is the threshold of channel (n mod 3) of pixel (n div 3)
(42_packer.md R135, R138). -/
def mergedBits (q : Nat → Pixel) (n : Fin 8) : Bool := decide ((q (n / 3)).chan (n % 3) = 255)

theorem ofBits_eight (f : Fin 8 → Bool) :
    Nat.ofBits f = (f 0).toNat * 2 ^ 0 + (f 1).toNat * 2 ^ 1 + (f 2).toNat * 2 ^ 2 + (f 3).toNat * 2 ^ 3
      + (f 4).toNat * 2 ^ 4 + (f 5).toNat * 2 ^ 5 + (f 6).toNat * 2 ^ 6 + (f 7).toNat * 2 ^ 7 := by
  simp only [Nat.ofBits, Fin.foldr_succ, Fin.foldr_zero, Fin.reduceSucc]
  omega

theorem bitMerge_eq_ofBits (q : Nat → Pixel) :
    bitMerge (q 0) (q 1) (q 2) = BitVec.ofNat 8 (Nat.ofBits (mergedBits q)) := by
  simp only [bitMerge, bitOf_eq, ofBits_eight]
  rfl

/-- A merged byte has the bits of its three pixels (42_packer.md R139). -/
theorem getLsbD_bitMerge (q : Nat → Pixel) (n : Nat) (hn : n < 8) :
    (bitMerge (q 0) (q 1) (q 2)).getLsbD n = decide ((q (n / 3)).chan (n % 3) = 255) := by
  rw [bitMerge_eq_ofBits, BitVec.getLsbD_ofNat, Nat.testBit_ofBits_lt _ n hn]
  simp [hn, mergedBits]

theorem getD_byteModeUnpack (c w : Nat) (m : Memory) (l j : Nat) (hj : j < l) :
    (byteModeUnpack c w m l).getD j 0 = (pixReadAt w m (1 + j / c)).chan (j % c) := by
  simp [byteModeUnpack, hj]

theorem getD_bitModeUnpack (w : Nat) (m : Memory) (l j : Nat) (hj : j < l) :
    (bitModeUnpack w m l).getD j 0 = bitMerge (pixReadAt w m (1 + 3 * j)) (pixReadAt w m (2 + 3 * j))
      (pixReadAt w m (3 + 3 * j)) := by
  simp [bitModeUnpack, hj]

/-! ## The pixels of the image in a state -/

theorem chan_pixReadAt_eq_chanAt (s : State) (i k : Nat) (hk : k < 4) :
    (pixReadAt s.width s.pix i).chan k = s.chanAt i k :=
  pixReadAt_chan s.width s.pix i k hk

theorem decodeLength_three (s : State) (hch : s.codec.ch = 3) : decodeLength s =
    (s.chanAt 0 0).toNat * 2 ^ 16 + (s.chanAt 0 1).toNat * 2 ^ 8 + (s.chanAt 0 2).toNat := by
  rw [decodeLength, hch, hdrParse_three]
  simp [chan_pixReadAt_eq_chanAt]

theorem decodeLength_four (s : State) (hch : s.codec.ch = 4) : decodeLength s =
    (s.chanAt 0 3).toNat * 2 ^ 24 + (s.chanAt 0 0).toNat * 2 ^ 16 + (s.chanAt 0 1).toNat * 2 ^ 8
      + (s.chanAt 0 2).toNat := by
  rw [decodeLength, hch, hdrParse_four]
  simp [chan_pixReadAt_eq_chanAt]

theorem getD_decodeFrame_byte (s : State) (hk : s.codec.OK) (hbyte : s.codec.bit = false) (j : Nat)
    (hj : j < decodeLength s) :
    (decodeFrame s).getD j 0 = s.chanAt (1 + j / s.codec.ch) (j % s.codec.ch) := by
  have hch : s.codec.ch = 3 ∨ s.codec.ch = 4 := hk.1
  have hchan : j % s.codec.ch < 4 := by
    have hmod : j % s.codec.ch < s.codec.ch := Nat.mod_lt _ (by omega)
    omega
  rw [decodeFrame, Codec.unpack, if_neg (by simp [hbyte]), getD_byteModeUnpack _ _ _ _ _ hj,
    chan_pixReadAt_eq_chanAt s _ _ hchan]

theorem getLsbD_decodeFrame_bit (s : State) (hbit : s.codec.bit = true) (j n : Nat) (hj : j < decodeLength s)
    (hn : n < 8) : ((decodeFrame s).getD j 0).getLsbD n
      = decide (s.chanAt (1 + 3 * j + n / 3) (n % 3) = 255) := by
  have hmerge := getLsbD_bitMerge (fun t => pixReadAt s.width s.pix (1 + 3 * j + t)) n hn
  rw [decodeFrame, Codec.unpack, if_pos hbit, getD_bitModeUnpack _ _ _ _ hj,
    ← chan_pixReadAt_eq_chanAt s _ _ (by omega), ← hmerge]
  congr 3 <;> omega

/-- Settles O56: the header value by the parser's two equations, and the frame by what each packing mode reads. -/
theorem decodeUnpacksTheFrame : Obligations.DecodeUnpacksTheFrame := by
  intro s hk
  exact ⟨decodeLength_three s, decodeLength_four s, unpack_length .., fun j hj =>
    ⟨fun hbyte => getD_decodeFrame_byte s hk hbyte j hj,
      fun hbit n hn => getLsbD_decodeFrame_bit s hbit j n hj hn⟩⟩

end Sys2Proof.Machine
end

section
/-! PROOFS. The packer: the padded frame, where ENCODE puts each byte or bit of it, and what DECODE reads of the
image (42_packer.md R130 to R140). -/

namespace Sys2Proof.Machine

/-! ## The padded frame -/

theorem padLen_lt (l c : Nat) (hc : 0 < c) : padLen l c < c := by
  have hceil : c * ceilDiv l c ≤ l + c - 1 := Nat.mul_div_le _ _
  unfold padLen
  omega

/-- The padded frame is the frame, then pad bytes. -/
theorem getD_padded (c : Nat) (fr : List Byte) (j : Nat) (hj : j < (padded c fr).length) :
    (padded c fr).getD j 0 = if j < fr.length then fr.getD j 0 else padByte := by
  rw [List.getD_eq_getElem _ _ hj]
  split_ifs with hfr
  · rw [padded_getElem c fr j hfr hj, List.getD_eq_getElem _ _ hfr]
  · simp only [padded, List.getElem_append_right (Nat.le_of_not_lt hfr), List.getElem_replicate]

/-- Settles O44: the padded length is C times the ceiling of L / C, which is less than C above L. -/
theorem paddingRule : Obligations.PaddingRule := by
  intro c fr hc
  refine ⟨padLen_lt _ c hc, ?_, padded_length c fr, getD_padded c fr⟩
  rw [padded_length, paddedLen_eq _ c hc, Nat.mul_mod_right]

/-! ## A byte as three pixels -/

theorem bitState_eq_on_iff (b : Byte) (n : Nat) : bitState b n = 255 ↔ b.getLsbD n = true := by
  cases hbit : b.getLsbD n <;> simp [bitState, hbit, onByte, offByte]

/-- Three pixels whose first eight channels carry the bits of b merge to b (42_packer.md R139). -/
theorem bitMerge_eq_of_chan {q : Nat → Pixel} {b : Byte}
    (hq : ∀ n < 8, (q (n / 3)).chan (n % 3) = bitState b n) : bitMerge (q 0) (q 1) (q 2) = b := by
  refine BitVec.eq_of_getLsbD_eq fun n hn => ?_
  rw [getLsbD_bitMerge q n hn, hq n hn, Bool.eq_iff_iff, decide_eq_true_iff, bitState_eq_on_iff]

/-- Channel (n mod 3) of part (n div 3) of a split byte is its bit n (42_packer.md R135). -/
theorem getD_bitSplit (b : Byte) (n : Nat) (hn : n < 8) :
    ((bitSplit b).getD (n / 3) []).getD (n % 3) 0 = bitState b n := by
  interval_cases n <;> rfl

/-- Settles O46: the eight channels that are read carry the bits of the byte, and the others do not count. -/
theorem bitMergeOfBitSplit : Obligations.BitMergeOfBitSplit := by
  intro b x0 x1 x2 y q0 q1 q2 hsplit
  refine bitMerge_eq_of_chan (q := fun | 0 => _ | 1 => _ | _ => _) fun n hn => ?_
  rw [← getD_bitSplit b n hn, hsplit]
  interval_cases n <;> rfl

/-! ## The pixels a padded frame is packed into -/

/-- Byte g·C + k of the padded frame is channel k of data pixel g (42_packer.md R132). -/
theorem getD_byteModePack (c : Nat) (pf : List Byte) (g k : Nat) (hg : g < pf.length / c) (hk : k < c) :
    ((byteModePack c pf).getD g []).getD k 0 = pf.getD (g * c + k) 0 := by
  simp [byteModePack, hg, hk]

/-- In bit mode, data pixel 3j + t is part t of byte j (42_packer.md R136). -/
theorem getD_bitModePack (pf : List Byte) (j t : Nat) (ht : t < 3) (hj : j < pf.length) :
    (bitModePack pf).getD (3 * j + t) [] = (bitSplit (pf.getD j 0)).getD t [] := by
  have hlen : 3 * j + t < (bitModePack pf).length := by
    rw [bitModePack_length]
    omega
  rw [List.getD_eq_getElem _ _ hlen, bitModePack_getElem pf j t ht hj hlen, List.getD_eq_getElem _ _ hj,
    List.getD_eq_getElem _ _ (show t < (bitSplit pf[j]).length from ht)]

/-! ## Where ENCODE puts the padded frame -/

theorem exec_encode_of_runs {s : State} (h : EncodeRuns s) :
    exec .encode s = .next ((encodeEffect s).complete none) := by
  rw [exec_encode, encodeCheck_of_legal h.img h.codec h.plen h.sameCh h.nonempty, if_pos h.fits, perform_none]

/-- The data pixel at logical index 1 + i is pixel i of the packed frame. -/
theorem chanAt_encode_data {s : State} (h : EncodeRuns s) {i k : Nat}
    (hi : i < s.codec.npix s.paddedFrameLength) (hk : k < s.codec.ch) :
    ((encodeEffect s).complete none).chanAt (1 + i) k
      = ((s.codec.pack (padded s.codec.ch s.frameBytes)).getD i []).getD k 0 := by
  have hn : 1 + i < (encodePixels s).length := by
    rw [encodePixels_length]
    omega
  have hrow : (encodePixels s)[1 + i] = (s.codec.pack (padded s.codec.ch s.frameBytes)).getD i [] := by
    rw [← List.getD_eq_getElem _ [] hn, Nat.add_comm, encodePixels, List.getD_cons_succ]
  obtain ⟨⟨⟨hw, -⟩, -⟩, hcodec, -⟩ := h
  rw [← hrow]
  exact encodeEffect_chanAt s hw hcodec (1 + i) k hn hk

theorem padded_frameBytes_length (s : State) :
    (padded s.codec.ch s.frameBytes).length = s.paddedFrameLength := by
  rw [padded_length, length_frameBytes, State.paddedFrameLength]

/-- Settles O50: byte j is byte (j div C)·C + (j mod C) of the padded frame, whose length is a multiple of C. -/
theorem encodeByteModePlacement : Obligations.EncodeByteModePlacement := by
  intro s h hbyte
  refine ⟨_, exec_encode_of_runs h, fun j hj => ?_⟩
  have hc : 0 < s.codec.ch := by
    obtain ⟨hch, -⟩ := h.codec
    omega
  have hdvd : s.codec.ch ∣ s.paddedFrameLength := ⟨_, paddedLen_eq _ _ hc⟩
  have hpixel : j / s.codec.ch < s.paddedFrameLength / s.codec.ch := Nat.div_lt_div_of_lt_of_dvd hdvd hj
  have hchan : j % s.codec.ch < s.codec.ch := Nat.mod_lt _ hc
  rw [chanAt_encode_data h (by rwa [Codec.npix_byte hbyte]) hchan, Codec.pack, if_neg (by simp [hbyte]),
    getD_byteModePack _ _ _ _ (by rwa [padded_frameBytes_length]) hchan, Nat.div_add_mod']

/-- In bit mode, pixel 1 + 3j + t of the image is part t of byte j of the padded frame. -/
theorem chanAt_encode_bit {s : State} (h : EncodeRuns s) (hbit : s.codec.bit = true) {j t k : Nat}
    (hj : j < s.paddedFrameLength) (ht : t < 3) (hk : k < 3) :
    ((encodeEffect s).complete none).chanAt (1 + (3 * j + t)) k
      = ((bitSplit ((padded s.codec.ch s.frameBytes).getD j 0)).getD t []).getD k 0 := by
  have hpixel : 3 * j + t < s.codec.npix s.paddedFrameLength := by
    rw [Codec.npix_bit hbit]
    omega
  have hchan : k < s.codec.ch := by rwa [h.codec.ch_eq_three hbit]
  rw [chanAt_encode_data h hpixel hchan, Codec.pack, if_pos hbit,
    getD_bitModePack _ _ _ ht (by rwa [padded_frameBytes_length])]

/-- Settles O51: bit n is in part (n div 3) of the split byte, and the sentinel ends part 2. -/
theorem encodeBitModePlacement : Obligations.EncodeBitModePlacement := by
  intro s h hbit
  refine ⟨_, exec_encode_of_runs h, fun j hj => ⟨fun n hn => ?_, ?_⟩⟩
  · rw [Nat.add_assoc, chanAt_encode_bit h hbit hj (by omega) (by omega), getD_bitSplit _ n hn]
    rfl
  · rw [show 3 + 3 * j = 1 + (3 * j + 2) by omega, chanAt_encode_bit h hbit hj (by omega) (by omega)]
    rfl

/-! ## What DECODE depends on -/

/-- The header value depends on the header's C channels only (41_header.md R122). -/
theorem decodeLength_congr {s u : State} (hcodec : u.codec = s.codec) (hk : s.codec.OK)
    (hhdr : ∀ k < s.codec.ch, u.chanAt 0 k = s.chanAt 0 k) : decodeLength u = decodeLength s := by
  obtain ⟨hch | hch, -⟩ := hk
  · rw [decodeLength_three s hch, decodeLength_three u (hcodec ▸ hch), hhdr 0 (by omega), hhdr 1 (by omega),
      hhdr 2 (by omega)]
  · rw [decodeLength_four s hch, decodeLength_four u (hcodec ▸ hch), hhdr 0 (by omega), hhdr 1 (by omega),
      hhdr 2 (by omega), hhdr 3 (by omega)]

theorem decodeFrame_eq_of_getD {s u : State} (hlen : decodeLength u = decodeLength s)
    (h : ∀ j < decodeLength s, (decodeFrame u).getD j 0 = (decodeFrame s).getD j 0) :
    decodeFrame u = decodeFrame s := by
  have hu : (decodeFrame u).length = decodeLength s := (unpack_length ..).trans hlen
  refine List.ext_getElem (hu.trans (unpack_length ..).symm) fun j hju hjs => ?_
  rw [← List.getD_eq_getElem _ 0 hju, ← List.getD_eq_getElem _ 0 hjs, h j (hu ▸ hju)]

theorem exec_decode (s : State) : exec .decode s = .next (s.perform (decodeCheck s) decodeEffect) := rfl

/-- DECODE reads PIXMEM only for the header value and the frame, and never writes it. -/
theorem exec_decode_congr {s : State} {m : Memory} (hlen : decodeLength { s with pix := m } = decodeLength s)
    (hframe : decodeFrame { s with pix := m } = decodeFrame s) :
    ∃ t, exec .decode s = .next t ∧ exec .decode { s with pix := m } = .next { t with pix := m } := by
  have hcheck : decodeCheck { s with pix := m } = decodeCheck s := by
    simp only [decodeCheck, hlen]
    rfl
  have heffect : decodeEffect { s with pix := m } = { decodeEffect s with pix := m } := by
    simp only [decodeEffect, hlen, hframe]
    rfl
  have hperform : { s with pix := m }.perform (decodeCheck s) decodeEffect
      = { s.perform (decodeCheck s) decodeEffect with pix := m } := by
    cases decodeCheck s with
    | none => exact congrArg (State.complete none) heffect
    | some e => rfl
  refine ⟨_, exec_decode s, ?_⟩
  rw [exec_decode, hcheck, hperform]

/-- Settles O57: the header value and each byte of the frame are the same in both images, and DECODE reads nothing
else of PIXMEM. -/
theorem decodeIgnoresPaddingAndUnusedPixels : Obligations.DecodeIgnoresPaddingAndUnusedPixels := by
  intro s m hk u hhdr hbytes hbits
  have hlen : decodeLength u = decodeLength s := decodeLength_congr rfl hk hhdr
  refine exec_decode_congr hlen (decodeFrame_eq_of_getD hlen fun j hj => ?_)
  have hju : j < decodeLength u := hj.trans_eq hlen.symm
  cases hmode : s.codec.bit with
  | false =>
    rw [getD_decodeFrame_byte s hk hmode j hj, getD_decodeFrame_byte u hk hmode j hju]
    exact hbytes hmode j hj
  | true =>
    refine BitVec.eq_of_getLsbD_eq fun n hn => ?_
    rw [getLsbD_decodeFrame_bit s hmode j n hj hn, getLsbD_decodeFrame_bit u hmode j n hju hn]
    exact decide_eq_decide.mpr (hbits hmode j hj n hn)

end Sys2Proof.Machine
end

section
/-! PROOFS. The frame: which byte ENCODE packs where, and what DECODE makes of the bytes it unpacks (43_frame.md R150
to R156, 44_commands.md R173). -/

namespace Sys2Proof.Machine

/-! ## Lists of words as bytes -/

theorem length_flatMap_bytesLE (ws : List Word) : (ws.flatMap (bytesLE 4)).length = 4 * ws.length := by
  induction ws with
  | nil => rfl
  | cons w rest ih =>
    rw [List.flatMap_cons, List.length_append, bytesLE_length, ih, List.length_cons]
    omega

/-- Byte 4i + j of a run of words is byte j of word i (10_state.md R37). -/
theorem getD_flatMap_bytesLE (ws : List Word) (i j : Nat) (hi : i < ws.length) (hj : j < 4) :
    (ws.flatMap (bytesLE 4)).getD (4 * i + j) 0 = byteOf (ws.getD i 0) j := by
  induction ws generalizing i with
  | nil => simp at hi
  | cons w rest ih =>
    rw [List.flatMap_cons]
    cases i with
    | zero =>
      have hfirst : 4 * 0 + j < (bytesLE 4 w).length := by simpa using hj
      rw [List.getD_append _ _ _ _ hfirst, List.getD_eq_getElem _ _ hfirst, bytesLE_getElem]
      simp
    | succ i =>
      have hrest : 4 * (i + 1) + j - (bytesLE 4 w).length = 4 * i + j := by
        rw [bytesLE_length]
        omega
      rw [List.getD_append_right _ _ _ _ (by rw [bytesLE_length]; omega), hrest, List.getD_cons_succ]
      exact ih i (by simpa using hi)

/-- Four bytes of a frame joined to a word are the bytes of that word (43_frame.md R154). -/
theorem byteOf_wordLE_take_drop (fr : List Byte) (n k : Nat) (hk : k < 4) :
    byteOf (wordLE ((fr.drop n).take 4)) k = fr.getD (n + k) 0 := by
  rw [byteOf_wordLE _ k hk]
  simp [List.getD_eq_getElem?_getD, hk]

/-! ## The frame ENCODE packs -/

/-- The words that hold the identifier block and the version/mode block of the frame ENCODE packs: the bank, or
all ones for the sentinel, and VB. -/
def State.blockWords (s : State) : List Word :=
  if s.idEn then [s.regs.id0, s.regs.id1, s.regs.id2, s.regs.id3, s.regs.vb]
  else [BitVec.allOnes 32, BitVec.allOnes 32, BitVec.allOnes 32, BitVec.allOnes 32, s.regs.vb]

theorem length_blockWords (s : State) : s.blockWords.length = 5 := by
  unfold State.blockWords
  split <;> rfl

theorem sentinelId_eq_bytesLE_allOnes : sentinelId = bytesLE 4 (BitVec.allOnes 32)
    ++ bytesLE 4 (BitVec.allOnes 32) ++ bytesLE 4 (BitVec.allOnes 32) ++ bytesLE 4 (BitVec.allOnes 32) := by
  decide

theorem byteOf_allOnes (k : Nat) (hk : k < 4) : byteOf (BitVec.allOnes 32) k = 0xFF := by
  interval_cases k <;> rfl

theorem frameBytes_of_raw {s : State} (h : s.structured = false) :
    s.frameBytes = s.payBytes s.payloadLen := by
  simp [State.frameBytes, h]

theorem frameBytes_of_structured {s : State} (h : s.structured = true) :
    s.frameBytes = s.blockWords.flatMap (bytesLE 4) ++ s.payBytes s.payloadLen := by
  rw [State.frameBytes, if_pos h, State.idBlock, State.blockWords]
  cases s.idEn with
  | true => simp [Regs.idBytes]
  | false => simp [sentinelId_eq_bytesLE_allOnes]

theorem getD_payBytes (s : State) (n j : Nat) (hj : j < n) : (s.payBytes n).getD j 0 = s.payByte j := by
  have hlen : j < (s.payBytes n).length := by simpa [State.payBytes] using hj
  rw [List.getD_eq_getElem _ _ hlen]
  simp [State.payBytes, State.payByte, readBytes_getElem]

/-- With STRUCTURED framing, byte 4i + j of the fixed part is byte j of block word i. -/
theorem getD_frameBytes_block {s : State} (h : s.structured = true) (i j : Nat) (hi : i < 5) (hj : j < 4) :
    s.frameBytes.getD (4 * i + j) 0 = byteOf (s.blockWords.getD i 0) j := by
  have hblocks : 4 * i + j < (s.blockWords.flatMap (bytesLE 4)).length := by
    rw [length_flatMap_bytesLE, length_blockWords]
    omega
  rw [frameBytes_of_structured h, List.getD_append _ _ _ _ hblocks,
    getD_flatMap_bytesLE _ i j (by rwa [length_blockWords]) hj]

/-- With STRUCTURED framing, the payload begins at byte 20. -/
theorem getD_frameBytes_payload {s : State} (h : s.structured = true) (j : Nat) (hj : j < s.payloadLen) :
    s.frameBytes.getD (20 + j) 0 = s.payByte j := by
  have hblocks : (s.blockWords.flatMap (bytesLE 4)).length = 20 := by
    rw [length_flatMap_bytesLE, length_blockWords]
  rw [frameBytes_of_structured h, List.getD_append_right _ _ _ _ (by omega), hblocks, Nat.add_sub_cancel_left,
    getD_payBytes s _ j hj]

/-- The block words one by one. -/
theorem getD_blockWords (s : State) :
    s.blockWords.getD 0 0 = (if s.idEn then s.regs.id0 else BitVec.allOnes 32) ∧
    s.blockWords.getD 1 0 = (if s.idEn then s.regs.id1 else BitVec.allOnes 32) ∧
    s.blockWords.getD 2 0 = (if s.idEn then s.regs.id2 else BitVec.allOnes 32) ∧
    s.blockWords.getD 3 0 = (if s.idEn then s.regs.id3 else BitVec.allOnes 32) ∧
    s.blockWords.getD 4 0 = s.regs.vb := by
  unfold State.blockWords
  cases s.idEn <;> exact ⟨rfl, rfl, rfl, rfl, rfl⟩

/-- A block word that ID_EN chooses between a register and all ones gives the frame that register's bytes or 0xFF
(43_frame.md R152). -/
theorem getD_frameBytes_identifier {s : State} (h : s.structured = true) (i : Nat) (hi : i < 5) {w : Word}
    (hw : s.blockWords.getD i 0 = if s.idEn then w else BitVec.allOnes 32) (j : Nat) (hj : j < 4) :
    s.frameBytes.getD (4 * i + j) 0 = if s.idEn then byteOf w j else 0xFF := by
  rw [getD_frameBytes_block h i j hi hj, hw, apply_ite (byteOf · j), byteOf_allOnes j hj]

/-- Settles O45: the fixed part is the bytes of the five block words, and the payload follows it. -/
theorem frameBytesOfEncode : Obligations.FrameBytesOfEncode := by
  intro s
  refine ⟨length_frameBytes s, fun hraw j hj => ?_, fun hstr => ?_⟩
  · rw [frameBytes_of_raw hraw, getD_payBytes s _ j hj]
  · obtain ⟨h0, h1, h2, h3, hvb⟩ := getD_blockWords s
    have hfirst := getD_frameBytes_identifier hstr 0 (by decide) h0
    simp only [Nat.mul_zero, Nat.zero_add] at hfirst
    refine ⟨hfirst, getD_frameBytes_identifier hstr 1 (by decide) h1,
      getD_frameBytes_identifier hstr 2 (by decide) h2, getD_frameBytes_identifier hstr 3 (by decide) h3,
      fun j hj => ?_, getD_frameBytes_payload hstr⟩
    rw [← hvb]
    exact getD_frameBytes_block hstr 4 j (by decide) hj

/-! ## A DECODE that succeeds -/

theorem length_decodeFrame (s : State) : (decodeFrame s).length = decodeLength s := unpack_length ..

theorem decodeCheck_of_runs {s : State} (h : DecodeRuns s) : decodeCheck s = none := by
  obtain ⟨himg, hk, havail, hch, hvalid, hpay, hpresent⟩ := h
  have hcfg : ¬(¬(s.ImgOK ∧ s.codec.OK) ∨ s.numPixels < s.regs.imgAvail.toNat) :=
    not_or.mpr ⟨not_not_intro ⟨himg, hk⟩, Nat.not_lt.mpr havail⟩
  rw [decodeCheck, if_neg hcfg, if_neg (not_not_intro hch), if_neg (by omega), if_neg (not_not_intro hvalid),
    if_neg (Nat.not_lt.mpr hpay), if_neg (Nat.not_lt.mpr hpresent)]

theorem exec_decode_of_runs {s : State} (h : DecodeRuns s) :
    exec .decode s = .next ((decodeEffect s).complete none) := by
  rw [exec_decode, decodeCheck_of_runs h, perform_none]

/-! ## The registers DECODE writes -/

theorem decodeEffect_regs (s : State) : (decodeEffect s).regs =
    { (if s.structured then s.regs.takeBlocks (decodeFrame s) else s.regs) with
      plen := BitVec.ofNat 32 (decodeLength s - s.fixedPart)
      frameLen := BitVec.ofNat 32 (decodeLength s)
      padLen := BitVec.ofNat 32 (padLen (decodeLength s) s.codec.ch) } := rfl

/-- The three lengths DECODE reports are exact: the header value fits in a register (30_encoding.md R93). -/
theorem decodeEffect_lengths (s : State) (hk : s.codec.OK) :
    (decodeEffect s).regs.plen.toNat = decodeLength s - s.fixedPart ∧
    (decodeEffect s).regs.frameLen.toNat = decodeLength s ∧
    (decodeEffect s).regs.padLen.toNat = padLen (decodeLength s) s.codec.ch := by
  have hlen : decodeLength s < 2 ^ 32 := hdrParse_lt _ _
  have hch : s.codec.ch = 3 ∨ s.codec.ch = 4 := hk.1
  have hpad : padLen (decodeLength s) s.codec.ch < s.codec.ch := padLen_lt _ _ (by omega)
  exact ⟨Nat.mod_eq_of_lt (by omega), Nat.mod_eq_of_lt hlen, Nat.mod_eq_of_lt (by omega)⟩

theorem decodeEffect_blocks_raw {s : State} (h : s.structured = false) :
    (decodeEffect s).regs.id0 = s.regs.id0 ∧ (decodeEffect s).regs.id1 = s.regs.id1 ∧
    (decodeEffect s).regs.id2 = s.regs.id2 ∧ (decodeEffect s).regs.id3 = s.regs.id3 ∧
    (decodeEffect s).regs.vb = s.regs.vb := by
  simp [decodeEffect_regs, h]

/-- With STRUCTURED framing, frame bytes 0 to 19 are the bytes of ID0 to ID3 and VB (43_frame.md R154). -/
theorem decodeEffect_blocks_structured {s : State} (h : s.structured = true) (k : Nat) (hk : k < 4) :
    byteOf (decodeEffect s).regs.id0 k = (decodeFrame s).getD k 0 ∧
    byteOf (decodeEffect s).regs.id1 k = (decodeFrame s).getD (4 + k) 0 ∧
    byteOf (decodeEffect s).regs.id2 k = (decodeFrame s).getD (8 + k) 0 ∧
    byteOf (decodeEffect s).regs.id3 k = (decodeFrame s).getD (12 + k) 0 ∧
    byteOf (decodeEffect s).regs.vb k = (decodeFrame s).getD (16 + k) 0 := by
  have hfirst := byteOf_wordLE_take_drop (decodeFrame s) 0 k hk
  rw [List.drop_zero, Nat.zero_add] at hfirst
  rw [decodeEffect_regs, if_pos h]
  exact ⟨hfirst, byteOf_wordLE_take_drop _ 4 k hk, byteOf_wordLE_take_drop _ 8 k hk,
    byteOf_wordLE_take_drop _ 12 k hk, byteOf_wordLE_take_drop _ 16 k hk⟩

/-! ## ID_SENT -/

theorem idSentOf_raw (fr : List Byte) : idSentOf false fr = false := rfl

/-- A frame with an identifier block carries the sentinel exactly when its bytes 0 to 15 are all 0xFF (43_frame.md
R156). -/
theorem idSentOf_structured_iff (fr : List Byte) (hfr : 16 ≤ fr.length) :
    idSentOf true fr = true ↔ ∀ j < 16, fr.getD j 0 = 0xFF := by
  have hlen : (fr.take idLen).length = idLen := List.length_take_of_le hfr
  rw [idSentOf, Bool.true_and, beq_iff_eq, sentinelId, List.eq_replicate_iff]
  constructor
  · rintro ⟨-, hall⟩ j hj
    rw [List.getD_eq_getElem _ _ (hj.trans_le hfr)]
    exact hall _ (List.mem_take_iff_getElem.mpr ⟨j, lt_min hj (hj.trans_le hfr), rfl⟩)
  · intro hall
    refine ⟨hlen, fun b hb => ?_⟩
    obtain ⟨j, hj, rfl⟩ := List.mem_take_iff_getElem.mp hb
    obtain ⟨hj16, hjfr⟩ := lt_min_iff.mp hj
    rw [← List.getD_eq_getElem _ 0 hjfr]
    exact hall j hj16

/-! ## The payload DECODE writes -/

theorem payByte_decodeEffect_inside (s : State) (p : Nat) (hp : p < decodeLength s - s.fixedPart) :
    (decodeEffect s).payByte p = (decodeFrame s).getD (s.fixedPart + p) 0 := by
  have hlen : p < ((decodeFrame s).drop s.fixedPart).length := by
    rwa [List.length_drop, length_decodeFrame]
  have hread := read_writeBytes_inside .pay _ s.pay 0 p hlen
  rw [Nat.zero_add, List.getElem_drop] at hread
  rw [State.payByte, decodeEffect_pay, hread, List.getD_eq_getElem]

theorem payByte_decodeEffect_outside (s : State) (p : Nat) (hp : decodeLength s - s.fixedPart ≤ p) :
    (decodeEffect s).payByte p = s.payByte p := by
  refine read_writeBytes_outside .pay _ s.pay 0 p (.inr ?_)
  rwa [Nat.zero_add, List.length_drop, length_decodeFrame]

/-- Settles O55: each part of the effect by its own lemma; completing it changes only STATUS and the phase. -/
theorem decodeResult : Obligations.DecodeResult := by
  intro s h
  obtain ⟨hplen, hframeLen, hpadLen⟩ := decodeEffect_lengths s h.codec
  refine ⟨_, exec_decode_of_runs h, rfl, rfl, rfl, hplen, hframeLen, hpadLen, payByte_decodeEffect_inside s,
    payByte_decodeEffect_outside s, rfl, fun hraw => ⟨?_, decodeEffect_blocks_raw hraw⟩,
    fun hstr => ⟨?_, decodeEffect_blocks_structured hstr⟩⟩
  · rw [complete_status, decodeEffect_status, hraw, idSentOf_raw]
  · obtain ⟨-, -, hfixed⟩ := h.valid
    rw [State.fixedPart, if_pos hstr, ← length_decodeFrame] at hfixed
    have hblock : idLen ≤ fStruct := by decide
    rw [complete_status, decodeEffect_status, hstr]
    exact idSentOf_structured_iff _ (hblock.trans hfixed)

end Sys2Proof.Machine
end

section
/-! PROOFS. The life of a command: its acceptance, its completion in the engine's turn, what its flags say then, and
that it completes (44_commands.md R170, R171, R175, R176). -/

namespace Sys2Proof.Machine

/-! ## Acceptance -/

/-- Settles O26: CMD is a register, so its write is OKAY; while BUSY it falls under the BUSY rule, while IDLE it is
`State.accept`. -/
theorem cmdWriteIsAccepted : Obligations.CmdWriteIsAccepted := by
  intro s v
  refine ⟨fun hb => ?_, fun hb => ?_⟩
  · obtain ⟨hwrite, -⟩ := accessWhileBusy .word 0x000008 v s hb
    have htarget := Option.ne_none_iff_exists'.mpr
      ⟨_, okTarget_register s.par 0x000008 (by decide) (by decide)⟩
    exact hwrite ((busWrite_eq_error_iff .word 0x000008 v s).not.mpr htarget)
  · exact ⟨s.accept v, busWrite_cmd_idle s v hb, rfl, rfl, rfl, rfl, rfl, rfl, rfl, rfl⟩

/-! ## The engine's turn -/

theorem step_of_nextTurn_engine {s : State} (h : nextTurn s = .engine) :
    step s = engineTurn (spendTurn s) := by
  simp only [step, takeTurn, h]

theorem step_of_nextTurn_rst {s : State} (h : nextTurn s = .rst) :
    step s = .next (hardReset (spendTurn s)) := by
  simp only [step, takeTurn, h]

theorem engineTurn_of_decode {s : State} {i : Instr} (hb : s.busy = true) (hd : decode s.eng.op = .ok i) :
    engineTurn s = exec i s := by
  simp only [engineTurn, hb, if_true, fetchWord, hd]

theorem engineTurn_of_reject {s : State} {r : DecodeReject} (hb : s.busy = true)
    (hd : decode s.eng.op = .error r) : engineTurn s = .next (illegalCommand s) := by
  simp only [engineTurn, hb, if_true, fetchWord, hd]

/-- Settles O5: using up the turn leaves the engine as it is. -/
theorem stepRunsTheDecodedCommand : Obligations.StepRunsTheDecodedCommand := by
  intro s i hb hn hd _
  rw [step_of_nextTurn_engine hn]
  exact engineTurn_of_decode (s := spendTurn s) hb hd

/-- A word that is accepted has MBZ 0 and OP 0x01 to 0x07 (30_encoding.md R91), so every other one is rejected
(R94). -/
theorem decode_reject_of_fields {w : Word}
    (h : mbzField w ≠ 0 ∨ opField w = 0 ∨ 8 ≤ (opField w).toNat) : ∃ r, decode w = .error r := by
  cases hd : decode w with
  | error r => exact ⟨r, rfl⟩
  | ok i =>
    obtain ⟨hmbz, hop⟩ := (decode_eq_ok_iff_fields w i).mp hd
    obtain ⟨hlow, hhigh⟩ := (exists_ofOpcode_iff _).mp ⟨i, hop⟩
    rcases h with h | h | h
    · exact absurd hmbz h
    · simp [h] at hlow
    · omega

/-- Settles O4: an illegal word is rejected by the decoder, and what completes it is `raise`. -/
theorem illegalWordCompletesWithIllegalCommand : Obligations.IllegalWordCompletesWithIllegalCommand := by
  intro s hb hn hfields
  obtain ⟨r, hr⟩ := decode_reject_of_fields (w := s.eng.op) hfields
  refine ⟨illegalCommand (spendTurn s), ?_, rfl, rfl⟩
  rw [step_of_nextTurn_engine hn]
  exact engineTurn_of_reject (s := spendTurn s) hb hr

/-! ## The flags at completion -/

/-- The first check that fails of a command (60_exceptions.md R203); SRESET has none. -/
def firstFailingCheck (i : Instr) (s : State) : Option ErrorKind :=
  match i with
  | .encode => encodeCheck s
  | .decode => decodeCheck s
  | .fill => fillCheck s
  | .addr => addrCheck s
  | .index => indexCheck s
  | .capacity => capacityCheck s
  | .sreset => none

/-- A command other than SRESET is its checks and an effect, which keeps WIGN, and ID_SENT unless it is DECODE's. -/
theorem exec_eq_perform (i : Instr) (s : State) (hi : i ≠ .sreset) : ∃ effect : State → State,
    exec i s = .next (s.perform (firstFailingCheck i s) effect) ∧
      (effect s).status.wign = s.status.wign ∧
      (i ≠ .decode → (effect s).status.idSent = s.status.idSent) := by
  cases i with
  | encode => exact ⟨encodeEffect, rfl, rfl, fun _ => rfl⟩
  | decode => exact ⟨decodeEffect, rfl, rfl, fun h => absurd rfl h⟩
  | fill => exact ⟨fillEffect, rfl, rfl, fun _ => rfl⟩
  | addr => exact ⟨_, exec_addr s, rfl, fun _ => rfl⟩
  | index => exact ⟨_, exec_index s, rfl, fun _ => rfl⟩
  | capacity => exact ⟨capacityEffect, rfl, rfl, fun _ => rfl⟩
  | sreset => exact absurd rfl hi

/-- A command that is its checks and an effect ends IDLE with DONE set and the outcome of its checks in ERRCODE. -/
theorem perform_completes (check : Option ErrorKind) (effect : State → State) (s : State) :
    (s.perform check effect).busy = false ∧ (s.perform check effect).status.done = true ∧
      (s.perform check effect).errCode = check.elim 0 ErrorKind.code := by
  cases check <;> exact ⟨rfl, rfl, rfl⟩

/-- What an effect keeps and completion does not touch, the command keeps, whether or not a check fails. -/
theorem perform_keeps {P : State → Prop} (hcomplete : ∀ e t, P t → P (t.complete e))
    {effect : State → State} {s : State} (hs : P s) (heffect : P (effect s)) (check : Option ErrorKind) :
    P (s.perform check effect) := by
  cases check with
  | none => exact hcomplete none _ heffect
  | some e => exact hcomplete (some e) s hs

/-- Settles O31: every command but SRESET is its checks and an effect. -/
theorem completionFlags : Obligations.CompletionFlags := by
  intro i s hi
  obtain ⟨effect, hexec, hwign, hid⟩ := exec_eq_perform i s hi
  obtain ⟨hidle, hdone, hcode⟩ := perform_completes (firstFailingCheck i s) effect s
  refine ⟨_, hexec, hidle, hdone, hcode, ?_, fun hdecode => ?_⟩
  · exact perform_keeps (P := (·.status.wign = s.status.wign)) (fun _ _ h => h) rfl hwign _
  · exact perform_keeps (P := (·.status.idSent = s.status.idSent)) (fun _ _ h => h) rfl (hid hdecode) _

/-! ## SRESET -/

theorem statusWord_of_reset {t : State} (hstatus : t.status = Status.reset) (hb : t.busy = false) :
    t.statusWord = 0 := by
  simp only [State.statusWord, State.errFlag, State.errCode, hstatus, hb]
  rfl

/-- With every register at its reset value and STATUS 0, every offset reads 0 (10_state.md R21). -/
theorem readReg_of_reset {t : State} (hregs : t.regs = Regs.reset) (hstatus : t.statusWord = 0) (off : Nat) :
    t.readReg off = 0 := by
  unfold State.readReg
  rw [hregs]
  split
  case h_2 => exact hstatus
  all_goals rfl

/-- Settles O60: the reset value of STATUS has DONE clear, and an IDLE engine reads BUSY 0. -/
theorem sresetResult : Obligations.SresetResult := by
  intro s
  have hword : s.resetRegisters.statusWord = 0 := statusWord_of_reset rfl rfl
  exact ⟨s.resetRegisters, rfl, readReg_of_reset rfl hword, hword, rfl, rfl, rfl, rfl, rfl, rfl, rfl, rfl⟩

/-! ## Every command completes -/

/-- An engine's turn while BUSY ends the command, whatever word the engine holds. -/
theorem engineTurn_ends_command {s : State} (hb : s.busy = true) :
    ∃ t, engineTurn s = .next t ∧ t.busy = false := by
  cases hd : decode s.eng.op with
  | ok i =>
    obtain ⟨t, ht⟩ := exec_total i s
    exact ⟨t, (engineTurn_of_decode hb hd).trans ht, exec_idle i s t ht⟩
  | error r => exact ⟨_, engineTurn_of_reject hb hd, rfl⟩

/-- While BUSY, the host has a turn only if one is scheduled (log 4). -/
theorem sched_ne_nil_of_nextTurn_host {s : State} (hb : s.busy = true) (hn : nextTurn s = .host) :
    s.sched ≠ [] := by
  intro hs
  simp [nextTurn, hs, hb] at hn

/-- While BUSY, a step ends the command or uses up a scheduled turn of the host. -/
theorem step_busy_cases {s : State} (hb : s.busy = true) : ∃ t, step s = .next t ∧
    (t.busy = false ∨ t.busy = true ∧ t.sched.length < s.sched.length) := by
  cases hn : nextTurn s with
  | engine =>
    obtain ⟨t, ht, hidle⟩ := engineTurn_ends_command (s := spendTurn s) hb
    exact ⟨t, (step_of_nextTurn_engine hn).trans ht, .inl hidle⟩
  | rst => exact ⟨_, step_of_nextTurn_rst hn, .inl rfl⟩
  | host =>
    obtain ⟨-, heng, -, -, -, hsched, -⟩ := hostTurnWhileBusyKeepsOperands (spendTurn s) hb
    have hbusy : (hostTurn (spendTurn s)).busy = true := by
      rw [State.busy, heng]
      exact hb
    have hpos := List.length_pos_iff.mpr (sched_ne_nil_of_nextTurn_host hb hn)
    refine ⟨_, step_of_nextTurn_host s hn, .inr ⟨hbusy, ?_⟩⟩
    rw [hsched, spendTurn_sched, List.length_tail]
    omega

theorem run_succ_of_step {s t : State} (h : step s = .next t) (k : Nat) :
    core.run (k + 1) s = core.run k t := by
  have hcore : core.step s = .next t := h
  simp only [Host.Core.run, hcore]

/-- Settles O8, by induction on the number of scheduled turns: each host turn uses one up, and any other turn ends
the command. -/
theorem everyCommandCompletes : Obligations.EveryCommandCompletes := by
  intro s hb
  induction hlen : s.sched.length using Nat.strong_induction_on generalizing s with
  | _ n ih =>
    obtain ⟨t, ht, hidle | ⟨hbusy, hless⟩⟩ := step_busy_cases hb
    · exact ⟨1, by omega, t, run_succ_of_step ht 0, hidle⟩
    · obtain ⟨k, hk, t', hrun, hidle⟩ := ih t.sched.length (by omega) t hbusy rfl
      exact ⟨k + 1, by omega, t', (run_succ_of_step ht k).trans hrun, hidle⟩

end Sys2Proof.Machine
end

section
/-! PROOFS. ENCODE and FILL: their errors in order, the registers and the header pixel ENCODE leaves, and which bytes
of PIXMEM they write (44_commands.md R172, R174). -/

namespace Sys2Proof.Machine

/-! ## The errors of ENCODE -/

theorem exec_encode_of_check {s : State} {e : ErrorKind} (h : encodeCheck s = some e) :
    exec .encode s = .next (s.raise e) := by
  rw [exec_encode, h, perform_some]

/-- The first check of ENCODE, negated: its configuration is legal (10_state.md R41). -/
theorem encode_legal_iff (s : State) :
    ¬(¬(s.ImgOK ∧ s.codec.OK) ∨ s.par.payDepth < s.payloadLen) ↔
      s.ImgOK ∧ s.codec.OK ∧ s.payloadLen ≤ s.par.payDepth := by
  rw [not_or, not_not, Nat.not_lt, and_assoc]

theorem numPixels_pos {s : State} (h : s.ImgOK) : 1 ≤ s.numPixels := by
  obtain ⟨⟨hw, hh, -⟩, -⟩ := h
  exact Nat.mul_pos hw hh

/-- Settles O48: each clause passes the checks before its own; the last two checks are the comparison with ECAP. -/
theorem encodeErrorsInOrder : Obligations.EncodeErrorsInOrder := by
  intro s legal
  refine ⟨fun hill => ?_, fun hlegal hch => ?_, fun hlegal hch hraw hlen => ?_, fun hlegal hch hlen hbig => ?_⟩
  · have hcfg := (encode_legal_iff s).not_right.mpr hill
    exact exec_encode_of_check (by rw [encodeCheck, if_pos hcfg])
  · have hcfg := (encode_legal_iff s).mpr hlegal
    exact exec_encode_of_check (by rw [encodeCheck, if_neg hcfg, if_pos hch])
  · have hcfg := (encode_legal_iff s).mpr hlegal
    have hempty : s.frameLength = 0 := by simp [State.frameLength, State.fixedPart, hraw, hlen]
    exact exec_encode_of_check (by rw [encodeCheck, if_neg hcfg, if_neg (not_not_intro hch), if_pos hempty])
  · obtain ⟨himg, hk, hpay⟩ := hlegal
    have hfit : ¬s.frameLength ≤ s.codec.ecap s.numPixels := by
      rw [Codec.le_ecap_iff hk _ _ (numPixels_pos himg), not_and_or, Nat.not_le, Nat.not_le]
      exact hbig
    exact exec_encode_of_check (by rw [encodeCheck_of_legal himg hk hpay hch hlen, if_neg hfit])

/-! ## The registers and the header pixel ENCODE leaves -/

/-- A frame that ENCODE accepts has a length its header holds (41_header.md R123). -/
theorem EncodeRuns.frameLength_le_hmax {s : State} (h : EncodeRuns s) : s.frameLength ≤ s.codec.hmax := by
  obtain ⟨hle, -⟩ := (Codec.le_ecap_iff h.codec _ _ (numPixels_pos h.img)).mp h.fits
  exact hle

theorem Codec.hmax_lt {k : Codec} (hk : k.OK) : k.hmax < 2 ^ 32 := by
  obtain ⟨hch | hch, -⟩ := hk <;> simp [Codec.hmax, hch]

/-- The three numbers ENCODE reports are exact: each fits in a register (30_encoding.md R93). -/
theorem encodeEffect_lengths {s : State} (h : EncodeRuns s) :
    (encodeEffect s).regs.frameLen.toNat = s.frameLength ∧
    (encodeEffect s).regs.padLen.toNat = padLen s.frameLength s.codec.ch ∧
    (encodeEffect s).regs.imgAvail.toNat = s.numPixels := by
  have hlen : s.frameLength < 2 ^ 32 := h.frameLength_le_hmax.trans_lt (Codec.hmax_lt h.codec)
  have hch : s.codec.ch = 3 ∨ s.codec.ch = 4 := h.codec.1
  have hpad : padLen s.frameLength s.codec.ch < s.codec.ch := padLen_lt _ _ (by omega)
  have hdiff : paddedLen s.frameLength s.codec.ch - s.frameLength = padLen s.frameLength s.codec.ch :=
    Nat.add_sub_cancel_left ..
  refine ⟨Nat.mod_eq_of_lt hlen, ?_, Nat.mod_eq_of_lt (numPixels_lt s)⟩
  exact (congrArg (· % 2 ^ 32) hdiff).trans (Nat.mod_eq_of_lt (by omega))

/-- The pixel at logical index 0 is the header. -/
theorem chanAt_encode_header {s : State} (h : EncodeRuns s) {k : Nat} (hk : k < s.codec.ch) :
    ((encodeEffect s).complete none).chanAt 0 k = (hdrPack s.frameLength s.codec.ch).getD k 0 := by
  obtain ⟨⟨⟨hw, -⟩, -⟩, hcodec, -⟩ := h
  exact encodeEffect_chanAt s hw hcodec 0 k (by simp [encodePixels]) hk

/-- Channels 0 to 2 of the header hold bytes 2, 1 and 0 of the length, and channel 3 of four holds byte 3
(41_header.md R121). -/
theorem getD_hdrPack (l c : Nat) :
    (hdrPack l c).getD 0 0 = natByte l 2 ∧ (hdrPack l c).getD 1 0 = natByte l 1 ∧
    (hdrPack l c).getD 2 0 = natByte l 0 ∧ (c = 4 → (hdrPack l c).getD 3 0 = natByte l 3) := by
  by_cases hc : c = 4 <;> simp [hdrPack, hc]

/-- Settles O49: the registers by `encodeEffect_lengths`, and the header's channels are the bytes of the length. -/
theorem encodeRegistersAndHeader : Obligations.EncodeRegistersAndHeader := by
  intro s h
  obtain ⟨hframeLen, hpadLen, havail⟩ := encodeEffect_lengths h
  obtain ⟨h0, h1, h2, h3⟩ := getD_hdrPack s.frameLength s.codec.ch
  have hch : s.codec.ch = 3 ∨ s.codec.ch = 4 := h.codec.1
  refine ⟨_, exec_encode_of_runs h, hframeLen, hpadLen, havail, rfl, rfl, rfl, ?_, ?_, ?_, fun h4 => ?_, rfl⟩
  · rw [chanAt_encode_header h (by omega), h0, natByte_toNat]
  · rw [chanAt_encode_header h (by omega), h1, natByte_toNat]
  · rw [chanAt_encode_header h (by omega), h2, natByte_toNat, Nat.mul_zero, Nat.pow_zero, Nat.div_one]
  · have hmax := h.frameLength_le_hmax
    rw [Codec.hmax, h4] at hmax
    rw [chanAt_encode_header h (by omega), h3 h4, natByte_toNat, Nat.mod_eq_of_lt (by omega)]

/-- Settles O52: a byte outside the run of pixels written is no channel below C of one of them. -/
theorem encodeWritesNoOtherByte : Obligations.EncodeWritesNoOtherByte := by
  intro s h
  refine ⟨_, exec_encode_of_runs h, rfl, fun b hb => ?_⟩
  refine read_putPixels_outside s.width (encodePixels s) s.pix 0 b fun n hn => ?_
  have hrow := encodePixels_row s h.codec _ (List.getElem_mem hn)
  rw [encodePixels_length] at hn
  rw [Nat.zero_add]
  by_contra hin
  have hne : b ≠ baseAt s.width n + (b - baseAt s.width n) := hb n (by omega) _ (by omega)
  omega

/-! ## FILL -/

/-- Pixels that fit the image leave alone every channel past the image's channel count. -/
theorem FitsImage.read_past_channels {s : State} {gs : List (List Byte)} (h : FitsImage s gs) (j k : Nat)
    (hk : k < 4) (hch : s.imgChannels ≤ k) :
    Memory.read .pix (putPixels s.width s.pix 0 gs) (4 * j + k) = Memory.read .pix s.pix (4 * j + k) := by
  refine read_putPixels_outside s.width gs s.pix 0 _ fun n hn => ?_
  have hlen := h.row _ (List.getElem_mem hn)
  rw [baseAt_eq]
  omega

/-- The pixel (x, y) is the one at its index in the scan order (40_scan_order.md R111). -/
theorem baseAt_indexOf (w x y : Nat) (hx : x < w) : baseAt w (indexOf w x y) = 4 * (y * w + x) := by
  rw [baseAt, address_indexOf w x y hx, pixelBase]

theorem exec_fill (s : State) : exec .fill s = .next (s.perform (fillCheck s) fillEffect) := rfl

/-- Every channel FILL writes gets its byte of FILL_COLOR. -/
theorem pixByte_fillEffect {s : State} (himg : s.ImgOK) {x y k : Nat} (hx : x < s.width) (hy : y < s.height)
    (hk : k < s.imgChannels) :
    (fillEffect s).pixByte (4 * (y * s.width + x) + k) = byteOf s.regs.fillColor k := by
  obtain ⟨⟨hw, -⟩, hch⟩ := himg
  have hn := indexOf_lt s.width s.height x y hx hy
  have hrow : ∀ g ∈ List.replicate s.numPixels (bytesLE s.imgChannels s.regs.fillColor), g.length ≤ 4 := by
    intro g hg
    rw [List.eq_of_mem_replicate hg, bytesLE_length]
    omega
  have hread := read_putPixels_inside s.width _ s.pix 0 (indexOf s.width x y) k hw hrow
    (by rwa [List.length_replicate]) (by simpa using hk)
  rw [Nat.zero_add, baseAt_indexOf _ _ _ hx] at hread
  simpa [State.pixByte] using hread

/-- Settles O59: FILL writes pixels that fit the image, one for each index of the scan order. -/
theorem fillResult : Obligations.FillResult := by
  intro s
  rw [exec_fill]
  refine ⟨fun hill => ?_, fun himg => ?_⟩
  · rw [fillCheck, if_neg hill, perform_some]
  · have hcheck : fillCheck s = none := (fillCheck_eq_none_iff s).mpr himg
    have hfit := fillPixels_fitsImage s hcheck
    rw [hcheck, perform_none]
    refine ⟨_, rfl, Nat.mod_eq_of_lt (numPixels_lt s), fun x hx y hy k hk => pixByte_fillEffect himg hx hy hk,
      fun j k hk hout => ?_, rfl, rfl, rfl, rfl⟩
    rcases hout with hword | hchan
    · exact hfit.read_past_image _ (by omega)
    · exact hfit.read_past_channels j k hk hchan

end Sys2Proof.Machine
end

section
/-! PROOFS. DECODE: its errors in order, when it detects truncation, and the round trip after ENCODE (44_commands.md
R173, R177, R179). -/

namespace Sys2Proof.Machine

/-! ## The errors of DECODE -/

theorem exec_decode_of_check {s : State} {e : ErrorKind} (h : decodeCheck s = some e) :
    exec .decode s = .next (s.raise e) := by
  rw [exec_decode, h, perform_some]

/-- The first check of DECODE, negated: its configuration is legal (10_state.md R41). -/
theorem decode_legal_iff (s : State) :
    ¬(¬(s.ImgOK ∧ s.codec.OK) ∨ s.numPixels < s.regs.imgAvail.toNat) ↔
      s.ImgOK ∧ s.codec.OK ∧ s.regs.imgAvail.toNat ≤ s.numPixels := by
  rw [not_or, not_not, Nat.not_lt, and_assoc]

/-- With a legal configuration, one channel count and the header present, DECODE checks the header value, then the
room in PAYMEM, then the data pixels. -/
theorem decodeCheck_of_legal {s : State}
    (hlegal : s.ImgOK ∧ s.codec.OK ∧ s.regs.imgAvail.toNat ≤ s.numPixels)
    (hch : s.imgChannels = s.codec.ch) (havail : s.regs.imgAvail ≠ 0) :
    decodeCheck s =
      if ¬HdrValid (decodeLength s) (s.codec.dcap s.numPixels) s.fixedPart then some .corruptHeader
      else if s.par.payDepth < decodeLength s - s.fixedPart then some .bufferOverflow
      else if s.regs.imgAvail.toNat < 1 + s.codec.nread (decodeLength s) then some .truncatedImage
      else none := by
  have hpresent : s.regs.imgAvail.toNat ≠ 0 := fun h0 => havail (BitVec.eq_of_toNat_eq h0)
  rw [decodeCheck, if_neg ((decode_legal_iff s).mpr hlegal), if_neg (not_not_intro hch), if_neg hpresent]

/-- Settles O53: the first three clauses are the checks of `decodeCheck` before the header is read, the others those
of `decodeCheck_of_legal`. -/
theorem decodeErrorsInOrder : Obligations.DecodeErrorsInOrder := by
  intro s legal l valid
  refine ⟨fun hill => ?_, fun hlegal hch => ?_, fun hlegal hch h0 => ?_, fun hlegal hch h0 hhdr => ?_,
    fun hlegal hch h0 hhdr hpay => ?_, fun hlegal hch h0 hhdr hpay hshort => ?_⟩
  · have hcfg := (decode_legal_iff s).not_right.mpr hill
    exact exec_decode_of_check (by rw [decodeCheck, if_pos hcfg])
  · have hcfg := (decode_legal_iff s).mpr hlegal
    exact exec_decode_of_check (by rw [decodeCheck, if_neg hcfg, if_pos hch])
  · have hcfg := (decode_legal_iff s).mpr hlegal
    have hnone : s.regs.imgAvail.toNat = 0 := congrArg BitVec.toNat h0
    exact exec_decode_of_check (by rw [decodeCheck, if_neg hcfg, if_neg (not_not_intro hch), if_pos hnone])
  · exact exec_decode_of_check (by rw [decodeCheck_of_legal hlegal hch h0, if_pos hhdr])
  · exact exec_decode_of_check (by
      rw [decodeCheck_of_legal hlegal hch h0, if_neg (not_not_intro hhdr), if_pos hpay])
  · exact exec_decode_of_check (by
      rw [decodeCheck_of_legal hlegal hch h0, if_neg (not_not_intro hhdr), if_neg (Nat.not_lt.mpr hpay),
        if_pos hshort])

/-! ## The data pixels DECODE reads -/

theorem Codec.OK.ch_pos {k : Codec} (hk : k.OK) : 0 < k.ch := by
  obtain ⟨hch, -⟩ := hk
  omega

theorem Codec.nread_bit {k : Codec} (hbit : k.bit = true) (l : Nat) : k.nread l = 3 * l := if_pos hbit

theorem Codec.nread_byte {k : Codec} (hbyte : k.bit = false) (l : Nat) : k.nread l = ceilDiv l k.ch := by
  simp [Codec.nread, hbyte]

/-- The last byte of a frame needs a data pixel of its own in bit mode, and in byte mode if it is the first of a
group of C (44_commands.md R179). -/
theorem Codec.nread_pred_lt {k : Codec} (hk : k.OK) {l : Nat} (hl : l ≠ 0)
    (h : k.bit = true ∨ l % k.ch = 1) : k.nread (l - 1) < k.nread l := by
  cases hb : k.bit with
  | true =>
    rw [Codec.nread_bit hb, Codec.nread_bit hb]
    omega
  | false =>
    have hmod : l % k.ch = 1 := h.resolve_left (by simp [hb])
    obtain ⟨hch | hch, -⟩ := hk
    all_goals
      rw [hch] at hmod
      rw [Codec.nread_byte hb, Codec.nread_byte hb, hch, ceilDiv, ceilDiv]
      omega

/-- Settles O54: the pixels present hold one byte less than the frame, so the last check fails. -/
theorem truncationIsDetected : Obligations.TruncationIsDetected := by
  intro s himg hk havail hch hvalid hpay hmode hpresent
  obtain ⟨-, -, -, -, -, htruncated⟩ := decodeErrorsInOrder s
  have hfew := Codec.nread_pred_lt hk hvalid.1 hmode
  have h0 : s.regs.imgAvail ≠ 0 := by
    intro h0
    rw [h0, BitVec.ofNat_eq_ofNat, BitVec.toNat_zero] at hpresent
    omega
  exact htruncated ⟨himg, hk, havail⟩ hch h0 hvalid hpay (by omega)

/-- DECODE reads no more data pixels than ENCODE wrote: pad bytes are not read (42_packer.md R134). -/
theorem Codec.nread_le_npix_paddedLen {k : Codec} (hk : k.OK) (l : Nat) :
    k.nread l ≤ k.npix (paddedLen l k.ch) := by
  cases hb : k.bit with
  | true =>
    rw [Codec.nread_bit hb, Codec.npix_bit hb]
    exact Nat.mul_le_mul_left 3 (le_paddedLen l k.ch)
  | false =>
    have hc := hk.ch_pos
    rw [Codec.nread_byte hb, Codec.npix_byte hb, paddedLen_eq l k.ch hc, Nat.mul_div_cancel_left _ hc]

/-- In byte mode, each byte of a frame lies in one of the data pixels ENCODE writes. -/
theorem Codec.div_lt_npix_paddedLen {k : Codec} (hk : k.OK) (hbyte : k.bit = false) {l j : Nat} (hj : j < l) :
    j / k.ch < k.npix (paddedLen l k.ch) := by
  rw [Codec.npix_byte hbyte]
  exact Nat.div_lt_div_of_lt_of_dvd ⟨_, paddedLen_eq l k.ch hk.ch_pos⟩ (hj.trans_le (le_paddedLen l k.ch))

/-! ## A state that holds the image ENCODE made -/

/-- u holds the image ENCODE makes of s: it has the format and the image registers of s, the pixels that ENCODE
writes, and these count as present (44_commands.md R177). -/
structure HoldsImageOf (s u : State) : Prop where
  /-- CTRL.PMODE and CTRL.CH. -/
  codec : u.codec = s.codec
  /-- CTRL.FRAMING. -/
  structured : u.structured = s.structured
  /-- The implementation parameters. -/
  par : u.par = s.par
  /-- IMG_W. -/
  width : u.width = s.width
  /-- IMG_H. -/
  height : u.height = s.height
  /-- IMG_CH. -/
  channels : u.imgChannels = s.imgChannels
  /-- The pixels at logical indices 0 to NPIX(P). -/
  pixels : ∀ i ≤ s.codec.npix s.paddedFrameLength, ∀ k < 4,
    u.chanAt i k = ((encodeEffect s).complete none).chanAt i k
  /-- The pixels ENCODE writes are present. -/
  present : 1 + s.codec.npix s.paddedFrameLength ≤ u.regs.imgAvail.toNat
  /-- IMG_AVAIL ≤ N (10_state.md R41; log 11). -/
  avail : u.regs.imgAvail.toNat ≤ u.numPixels

theorem HoldsImageOf.numPixels {s u : State} (hu : HoldsImageOf s u) : u.numPixels = s.numPixels := by
  rw [State.numPixels, State.numPixels, hu.width, hu.height]

theorem HoldsImageOf.fixedPart {s u : State} (hu : HoldsImageOf s u) : u.fixedPart = s.fixedPart := by
  rw [State.fixedPart, State.fixedPart, hu.structured]

section
variable {s u : State} (hs : EncodeRuns s) (hu : HoldsImageOf s u)
include hs hu

/-- The header value DECODE reads is the length ENCODE recorded. -/
theorem decodeLength_eq_frameLength : decodeLength u = s.frameLength := by
  have hch : s.codec.ch = 3 ∨ s.codec.ch = 4 := hs.codec.1
  rw [decodeLength, hu.codec]
  refine headerRoundTrip _ _ _ hch hs.frameLength_le_hmax fun k hk => ?_
  have hkc : k < s.codec.ch := by rwa [hdrPack_length _ _ hch] at hk
  rw [chan_pixReadAt_eq_chanAt u 0 k (by omega), hu.pixels 0 (by omega) k (by omega),
    chanAt_encode_header hs hkc, List.getD_eq_getElem _ _ hk]

/-- The checks of DECODE pass where those of ENCODE did: ECAP is at most DCAP, and DECODE reads no pixel that ENCODE
did not write. -/
theorem decodeRuns_of_holdsImageOf : DecodeRuns u := by
  have hlen := decodeLength_eq_frameLength hs hu
  have ⟨⟨hdim, himgch⟩, hk, hplen, hsame, hnonempty, hfits⟩ := hs
  constructor
  case img =>
    rw [State.ImgOK, State.DimOK, hu.width, hu.height, hu.numPixels, hu.par, hu.channels]
    exact ⟨hdim, himgch⟩
  case codec => rwa [hu.codec]
  case avail => exact hu.avail
  case sameCh => rw [hu.channels, hu.codec, hsame]
  case valid =>
    rw [hlen, hu.codec, hu.numPixels, hu.fixedPart]
    exact ⟨by omega, hfits.trans (Codec.ecap_le_dcap _ _), Nat.le_add_right _ _⟩
  case payload =>
    rw [hlen, hu.fixedPart, hu.par, State.frameLength, Nat.add_sub_cancel_left]
    exact hplen
  case present =>
    have hread := Codec.nread_le_npix_paddedLen hk s.frameLength
    have hpresent := hu.present
    rw [State.paddedFrameLength] at hpresent
    rw [hlen, hu.codec]
    omega

/-- Each byte DECODE unpacks is the frame's: in byte mode it is read from the channel it was put in, in bit mode each
of its bits is. -/
theorem getD_decodeFrame_eq (j : Nat) (hj : j < s.frameLength) :
    (decodeFrame u).getD j 0 = s.frameBytes.getD j 0 := by
  have hlen := decodeLength_eq_frameLength hs hu
  have hk : s.codec.OK := hs.codec
  have hpadded : j < s.paddedFrameLength := hj.trans_le (le_paddedLen _ _)
  have hbyte : (padded s.codec.ch s.frameBytes).getD j 0 = s.frameBytes.getD j 0 := by
    rw [getD_padded _ _ _ (by rwa [padded_frameBytes_length]), if_pos (by rwa [length_frameBytes])]
  rw [← hbyte]
  cases hb : s.codec.bit with
  | false =>
    obtain ⟨t, ht, hplace⟩ := encodeByteModePlacement s hs hb
    obtain rfl := Host.Outcome.next.inj ((exec_encode_of_runs hs).symm.trans ht)
    have hmod : j % s.codec.ch < s.codec.ch := Nat.mod_lt _ hk.ch_pos
    have hpixel := Codec.div_lt_npix_paddedLen hk hb hj
    rw [getD_decodeFrame_byte u (hu.codec ▸ hk) (hu.codec ▸ hb) j (hlen ▸ hj), hu.codec,
      hu.pixels _ (by rw [State.paddedFrameLength]; omega) _ (by omega), hplace j hpadded]
  | true =>
    obtain ⟨t, ht, hplace⟩ := encodeBitModePlacement s hs hb
    obtain rfl := Host.Outcome.next.inj ((exec_encode_of_runs hs).symm.trans ht)
    refine BitVec.eq_of_getLsbD_eq fun n hn => ?_
    obtain ⟨hbits, -⟩ := hplace j hpadded
    have hpixel : 1 + 3 * j + n / 3 ≤ s.codec.npix s.paddedFrameLength := by
      rw [Codec.npix_bit hb]
      omega
    rw [getLsbD_decodeFrame_bit u (hu.codec ▸ hb) j n (hlen ▸ hj) hn, hu.pixels _ hpixel _ (by omega),
      hbits n hn]
    cases ((padded s.codec.ch s.frameBytes).getD j 0).getLsbD n <;> rfl

end

/-! ## What DECODE gives back -/

/-- Two words with the same four bytes are equal. -/
theorem eq_of_byteOf {a b : Word} (h : ∀ k < 4, byteOf a k = byteOf b k) : a = b := by
  have hbytes : bytesLE 4 a = bytesLE 4 b := List.map_congr_left fun k hk => h k (List.mem_range.mp hk)
  rw [← wordLE_bytesLE a, hbytes, wordLE_bytesLE]

/-- The payload follows the fixed part of the frame, with either framing. -/
theorem getD_frameBytes_fixedPart_add (s : State) (j : Nat) (hj : j < s.payloadLen) :
    s.frameBytes.getD (s.fixedPart + j) 0 = s.payByte j := by
  cases h : s.structured with
  | true =>
    rw [State.fixedPart, if_pos h]
    exact getD_frameBytes_payload h j hj
  | false =>
    rw [State.fixedPart, if_neg (by simp [h]), Nat.zero_add, frameBytes_of_raw h, getD_payBytes s _ j hj]

/-- A STRUCTURED frame has its fixed part, 20 bytes (43_frame.md R150). -/
theorem le_frameLength_of_structured {s : State} (h : s.structured = true) : 20 ≤ s.frameLength := by
  rw [State.frameLength, State.fixedPart, if_pos h]
  exact Nat.le_add_right _ _

/-- A word that has the bytes of the frame from 4i on is block word i. -/
theorem eq_blockWord_of_bytes {s : State} (h : s.structured = true) {w : Word} (i : Nat) (hi : i < 5)
    (hw : ∀ k < 4, byteOf w k = s.frameBytes.getD (4 * i + k) 0) : w = s.blockWords.getD i 0 :=
  eq_of_byteOf fun k hk => (hw k hk).trans (getD_frameBytes_block h i k hi hk)

/-- Without an identifier, the first sixteen bytes of a STRUCTURED frame are the sentinel (43_frame.md R152). -/
theorem getD_frameBytes_sentinel {s : State} (h : s.structured = true) (hid : s.idEn = false) (j : Nat)
    (hj : j < 16) : s.frameBytes.getD j 0 = 0xFF := by
  have hword : s.blockWords.getD (j / 4) 0 = BitVec.allOnes 32 := by
    have hi : j / 4 < 4 := by omega
    rw [State.blockWords, if_neg (by simp [hid])]
    interval_cases j / 4 <;> rfl
  rw [← Nat.div_add_mod j 4, getD_frameBytes_block h (j / 4) (j % 4) (by omega) (by omega), hword,
    byteOf_allOnes _ (by omega)]

/-- The identifier bank and VB that DECODE extracts from a STRUCTURED image of s are the block words of s. -/
theorem decodeEffect_blocks_of_holdsImageOf {s u : State} (hs : EncodeRuns s) (hu : HoldsImageOf s u)
    (h : s.structured = true) :
    (decodeEffect u).regs.id0 = s.blockWords.getD 0 0 ∧ (decodeEffect u).regs.id1 = s.blockWords.getD 1 0 ∧
    (decodeEffect u).regs.id2 = s.blockWords.getD 2 0 ∧ (decodeEffect u).regs.id3 = s.blockWords.getD 3 0 ∧
    (decodeEffect u).regs.vb = s.blockWords.getD 4 0 := by
  have hfixed := le_frameLength_of_structured h
  have hframe (j : Nat) (hj : j < 20) := getD_decodeFrame_eq hs hu j (by omega)
  have hblocks := decodeEffect_blocks_structured (hu.structured.trans h)
  refine ⟨eq_blockWord_of_bytes h 0 (by decide) fun k hk => ?_,
    eq_blockWord_of_bytes h 1 (by decide) fun k hk => ?_, eq_blockWord_of_bytes h 2 (by decide) fun k hk => ?_,
    eq_blockWord_of_bytes h 3 (by decide) fun k hk => ?_, eq_blockWord_of_bytes h 4 (by decide) fun k hk => ?_⟩
  all_goals
    obtain ⟨h0, h1, h2, h3, h4⟩ := hblocks k hk
    rw [← hframe _ (by omega)]
  · rw [h0, Nat.mul_zero, Nat.zero_add]
  · exact h1
  · exact h2
  · exact h3
  · exact h4

/-- DECODE reports the sentinel of a STRUCTURED image made without an identifier (43_frame.md R156). -/
theorem idSent_of_holdsImageOf {s u : State} (hs : EncodeRuns s) (hu : HoldsImageOf s u)
    (h : s.structured = true) (hid : s.idEn = false) : (decodeEffect u).status.idSent = true := by
  have hfixed := le_frameLength_of_structured h
  have hlen : (decodeFrame u).length = s.frameLength :=
    (length_decodeFrame u).trans (decodeLength_eq_frameLength hs hu)
  rw [decodeEffect_status, hu.structured, h]
  refine (idSentOf_structured_iff _ (by omega)).mpr fun j hj => ?_
  rw [getD_decodeFrame_eq hs hu j (by omega), getD_frameBytes_sentinel h hid j hj]

/-- Settles O58: DECODE unpacks the frame ENCODE packed, byte by byte, so its results are the parts of that frame. -/
theorem encodeThenDecodeRoundTrip : Obligations.EncodeThenDecodeRoundTrip := by
  intro s t u hs ht hcodec hstructured hpar hw hh hch hpixels hpresent havail
  obtain rfl := Host.Outcome.next.inj ((exec_encode_of_runs hs).symm.trans ht)
  have hu : HoldsImageOf s u := ⟨hcodec, hstructured, hpar, congrArg BitVec.toNat hw,
    congrArg BitVec.toNat hh, congrArg BitVec.toNat hch, hpixels, hpresent, havail⟩
  have hruns := decodeRuns_of_holdsImageOf hs hu
  have hlen := decodeLength_eq_frameLength hs hu
  have hpayload : decodeLength u - u.fixedPart = s.payloadLen := by
    rw [hlen, hu.fixedPart, State.frameLength, Nat.add_sub_cancel_left]
  obtain ⟨hplen, hframeLen, -⟩ := decodeEffect_lengths u hruns.codec
  obtain ⟨hframeLen', -⟩ := encodeEffect_lengths hs
  refine ⟨_, exec_decode_of_runs hruns, rfl, BitVec.eq_of_toNat_eq (hplen.trans hpayload),
    BitVec.eq_of_toNat_eq ((hframeLen.trans hlen).trans hframeLen'.symm), fun k hk => ?_, fun h => ?_⟩
  · have hinside : s.fixedPart + k < s.frameLength := Nat.add_lt_add_left hk _
    calc (decodeEffect u).payByte k
        = (decodeFrame u).getD (u.fixedPart + k) 0 := payByte_decodeEffect_inside u k (hpayload ▸ hk)
      _ = s.frameBytes.getD (s.fixedPart + k) 0 := by rw [hu.fixedPart, getD_decodeFrame_eq hs hu _ hinside]
      _ = s.payByte k := getD_frameBytes_fixedPart_add s k hk
  · obtain ⟨h0, h1, h2, h3, hvb⟩ := decodeEffect_blocks_of_holdsImageOf hs hu h
    obtain ⟨hw0, hw1, hw2, hw3, hwvb⟩ := getD_blockWords s
    refine ⟨hvb.trans hwvb, fun hid => ?_, fun hid => ⟨idSent_of_holdsImageOf hs hu h hid, ?_⟩⟩
    · rw [hid, if_pos rfl] at hw0 hw1 hw2 hw3
      exact ⟨h0.trans hw0, h1.trans hw1, h2.trans hw2, h3.trans hw3⟩
    · rw [hid, if_neg Bool.false_ne_true] at hw0 hw1 hw2 hw3
      exact ⟨h0.trans hw0, h1.trans hw1, h2.trans hw2, h3.trans hw3⟩

end Sys2Proof.Machine
end

section
/-! PROOFS. Errors and the interrupt: no turn stops the machine, what a command that raises changes and which codes it
can end with, and what asserts and clears `irq` (60_exceptions.md R200 to R208). -/

namespace Sys2Proof.Machine

/-! ## No step stops -/

theorem engineTurn_of_idle {s : State} (hb : s.busy = false) : engineTurn s = .next s := by
  simp [engineTurn, hb]

/-- Settles O7: an engine's turn while BUSY ends its command, and every other turn is a next state by its definition. -/
theorem noStepStops : Obligations.NoStepStops := by
  intro s
  cases hn : nextTurn s with
  | host => exact ⟨_, step_of_nextTurn_host s hn⟩
  | rst => exact ⟨_, step_of_nextTurn_rst hn⟩
  | engine =>
    rw [step_of_nextTurn_engine hn]
    cases hb : s.busy with
    | false => exact ⟨_, engineTurn_of_idle (s := spendTurn s) hb⟩
    | true =>
      obtain ⟨t, ht, -⟩ := engineTurn_ends_command (s := spendTurn s) hb
      exact ⟨t, ht⟩

/-! ## A command that raises -/

/-- A command that ends with an error has raised it: no effect took place (60_exceptions.md R200). -/
theorem exec_eq_raise_of_error {i : Instr} {s t : State} {e : ErrorKind} (h : exec i s = .next t)
    (he : t.status.error = some e) : t = s.raise e := by
  by_cases hi : i = .sreset
  · subst hi
    obtain rfl := Host.Outcome.next.inj h
    cases he
  · obtain ⟨effect, hexec, -⟩ := exec_eq_perform i s hi
    obtain rfl := Host.Outcome.next.inj (hexec.symm.trans h)
    rcases perform_cases (firstFailingCheck i s) effect s with ⟨e', -, hp⟩ | ⟨-, hp⟩
    · rw [hp] at he ⊢
      obtain rfl : e' = e := Option.some.inj he
      rfl
    · rw [hp] at he
      cases he

/-- Settles O32: an error in STATUS was raised, and `State.raise` writes the flags of STATUS and the phase alone. -/
theorem errorsChangeOnlyStatus : Obligations.ErrorsChangeOnlyStatus := by
  intro i s t h herr
  obtain ⟨e, he⟩ := Option.ne_none_iff_exists'.mp herr
  rw [he]
  exact exec_eq_raise_of_error h he

/-! ## The error codes -/

/-- The code that the outcome of a command's checks leaves in ERRCODE (60_exceptions.md R201). -/
def outcomeCode (check : Option ErrorKind) : Nat := (check.elim 0 ErrorKind.code).toNat

/-- ERRCODE after a command other than SRESET is the code of its checks' outcome. -/
theorem exec_errCode {i : Instr} {s t : State} (hi : i ≠ .sreset) (h : exec i s = .next t) :
    t.errCode.toNat = outcomeCode (firstFailingCheck i s) := by
  obtain ⟨effect, hexec, -⟩ := exec_eq_perform i s hi
  obtain rfl := Host.Outcome.next.inj (hexec.symm.trans h)
  obtain ⟨-, -, hcode⟩ := perform_completes (firstFailingCheck i s) effect s
  exact congrArg BitVec.toNat hcode

/-! Each branch of a check names the error it raises. -/

theorem encodeCheck_code (s : State) : outcomeCode (encodeCheck s) ∈ [0, 1, 5, 7, 8] := by
  unfold encodeCheck
  split_ifs <;> decide

theorem decodeCheck_code (s : State) : outcomeCode (decodeCheck s) ∈ [0, 3, 4, 5, 7, 9] := by
  unfold decodeCheck
  split_ifs <;> decide

theorem fillCheck_code (s : State) : outcomeCode (fillCheck s) ∈ [0, 7] := by
  unfold fillCheck
  split_ifs <;> decide

theorem addrCheck_code (s : State) : outcomeCode (addrCheck s) ∈ [0, 1, 7] := by
  unfold addrCheck
  split_ifs <;> decide

theorem indexCheck_code (s : State) : outcomeCode (indexCheck s) ∈ [0, 1, 7] := by
  unfold indexCheck
  split_ifs <;> decide

theorem capacityCheck_code (s : State) : outcomeCode (capacityCheck s) ∈ [0, 7] := by
  unfold capacityCheck
  split_ifs <;> decide

/-- Settles O33: ERRCODE is the outcome of the command's own checks, and SRESET leaves it 0. -/
theorem errorCodesOfEachCommand : Obligations.ErrorCodesOfEachCommand := by
  intro i s t h
  have hcode (hi : i ≠ .sreset) := exec_errCode hi h
  cases i with
  | encode => exact (hcode nofun).symm ▸ encodeCheck_code s
  | decode => exact (hcode nofun).symm ▸ decodeCheck_code s
  | fill => exact (hcode nofun).symm ▸ fillCheck_code s
  | addr => exact (hcode nofun).symm ▸ addrCheck_code s
  | index => exact (hcode nofun).symm ▸ indexCheck_code s
  | capacity => exact (hcode nofun).symm ▸ capacityCheck_code s
  | sreset =>
    obtain rfl := Host.Outcome.next.inj h
    exact List.mem_singleton.mpr rfl

/-! ## The interrupt -/

theorem irq_of_done {s : State} (h : s.status.done = true) : s.irq = s.intEn := by
  rw [State.irq, h, Bool.true_and]

theorem irq_of_not_done {s : State} (h : s.status.done = false) : s.irq = false := by
  rw [State.irq, h, Bool.false_and]

/-- Every command but SRESET sets DONE, whatever IE is. -/
theorem exec_done {i : Instr} {s t : State} (hi : i ≠ .sreset) (h : exec i s = .next t) :
    t.status.done = true := by
  obtain ⟨u, hu, -, hdone, -⟩ := completionFlags i s hi
  obtain rfl := Host.Outcome.next.inj (hu.symm.trans h)
  exact hdone

/-- No command but SRESET writes CTRL, so IE stays. -/
theorem exec_intEn {i : Instr} {s t : State} (hi : i ≠ .sreset) (h : exec i s = .next t) :
    t.intEn = s.intEn := by
  obtain ⟨-, -, -, -, -, -, hregs⟩ := commandsWriteOnlyTheirRegisters i s t h hi
  rw [State.intEn, hregs]
  cases i <;> rfl

/-- Bit 6 of CTRL, as a read returns it, is IE (10_state.md R22). -/
theorem readReg_ctrl_getLsbD_six (s : State) : (s.readReg 0x000).getLsbD 6 = s.intEn := by
  simp [State.readReg, State.intEn]

/-- Settles O34: a completion sets DONE and keeps IE. -/
theorem irqOnCompletion : Obligations.IrqOnCompletion := by
  refine ⟨fun s => ?_, fun i s t hi h => ?_, fun s => ?_⟩
  · have hdone : s.statusWord.getLsbD 1 = s.status.done := statusWord_getLsbD s 1 (by decide)
    rw [hdone, readReg_ctrl_getLsbD_six, State.irq]
  · rw [irq_of_done (exec_done hi h), exec_intEn hi h]
  · have hdone : (illegalCommand s).status.done = true := rfl
    exact irq_of_done hdone

/-- A write of v to CTRL while IDLE sets IE to bit 6 of v and leaves STATUS alone. -/
theorem busWrite_ctrl_idle (s : State) (v : Word) (hb : s.busy = false) :
    (busWrite .word 0x000000 v s).2.intEn = v.getLsbD 6 ∧ (busWrite .word 0x000000 v s).2.status = s.status := by
  rw [busWrite_register_idle s 0x000000 v hb (by decide) (by decide),
    writeReg_eq_write s _ v (by decide) (by decide)]
  exact ⟨by simp [State.intEn, Regs.write], rfl⟩

/-- Settles O35: a write to CTRL acts on IE alone, and each of the clearing events leaves DONE = 0. -/
theorem irqEnableAndClear : Obligations.IrqEnableAndClear := by
  refine ⟨fun i s t => exec_done, fun s v hb hdone => ?_, fun s v hb hv => ?_, fun s v hb => ?_,
    fun s t h => ?_, fun s => ?_⟩
  · obtain ⟨hie, hstatus⟩ := busWrite_ctrl_idle s v hb
    rw [irq_of_done (hstatus ▸ hdone), hie]
  · have hclear : busWrite .word 0x000004 v s = (.okayWrite, s.clearStatus v) :=
      busWrite_register_idle s 0x000004 v hb (by decide) (by decide)
    rw [hclear]
    exact irq_of_not_done (by simp [hv])
  · have haccept : busWrite .word 0x000008 v s = (.okayWrite, s.accept v) := busWrite_cmd_idle s v hb
    rw [haccept]
    exact irq_of_not_done rfl
  · obtain rfl := Host.Outcome.next.inj h
    exact irq_of_not_done rfl
  · exact irq_of_not_done rfl

end Sys2Proof.Machine
end

section
/-! PROOFS. Reset: the state after it, what `rst` takes to its reset value and what it keeps, and the fresh draws an
abandoned ENCODE, FILL or DECODE leaves (70_reset_and_hazards.md R231 to R235, 20_memory.md R65). -/

namespace Sys2Proof.Machine

/-! ## What the abandoned command could have written -/

theorem writeSet_encode {s : State} (hop : s.eng.op = encode .encode) : writeSet s =
    if encodeCheck s = none then .pixels (1 + s.codec.npix s.paddedFrameLength) else .nothing := by
  rw [writeSet, hop, decode_encode]
  rfl

theorem writeSet_fill {s : State} (hop : s.eng.op = encode .fill) : writeSet s =
    if fillCheck s = none then .pixels s.numPixels else .nothing := by
  rw [writeSet, hop, decode_encode]

theorem writeSet_decode {s : State} (hop : s.eng.op = encode .decode) : writeSet s =
    if decodeCheck s = none then .payload (decodeLength s - s.fixedPart) else .nothing := by
  rw [writeSet, hop, decode_encode]

/-- A word other than those of ENCODE, DECODE and FILL is one of a command that writes no memory, or is illegal. -/
theorem writeSet_of_other {s : State} (hencode : s.eng.op ≠ encode .encode) (hdecode : s.eng.op ≠ encode .decode)
    (hfill : s.eng.op ≠ encode .fill) : writeSet s = .nothing := by
  unfold writeSet
  split
  case h_1 hd => exact absurd ((decode_eq_ok_iff _ _).mp hd) hencode
  case h_2 hd => exact absurd ((decode_eq_ok_iff _ _).mp hd) hfill
  case h_3 hd => exact absurd ((decode_eq_ok_iff _ _).mp hd) hdecode
  case h_4 => rfl

/-! ## What `rst` does -/

/-- With nothing to abandon, `rst` keeps the memories and the counter of draws (70_reset_and_hazards.md R233). -/
theorem hardReset_of_kept {s : State} (h : s.busy = false ∨ writeSet s = .nothing) : hardReset s =
    { s with regs := Regs.reset, status := Status.reset, eng := Engine.reset, waited := 0 } := by
  rcases h with hidle | hnothing
  · simp only [hardReset, hidle, Bool.false_eq_true, if_false]
  · exact hardReset_of_nothing s hnothing

theorem hardReset_of_pixels {s : State} {n : Nat} (hb : s.busy = true) (hw : writeSet s = .pixels n) :
    hardReset s = { s with
      pix := putPixels s.width s.pix 0 (freshPixels s.imgChannels s.draws n), draws := s.draws + n
      regs := Regs.reset, status := Status.reset, eng := Engine.reset, waited := 0 } := by
  simp only [hardReset, State.abandon, hb, if_true, hw]

theorem hardReset_of_payload {s : State} {n : Nat} (hb : s.busy = true) (hw : writeSet s = .payload n) :
    hardReset s = { s with
      pay := Memory.writeBytes s.pay 0 (freshBytes s.draws n), draws := s.draws + n
      regs := Regs.reset, status := Status.reset, eng := Engine.reset, waited := 0 } := by
  simp only [hardReset, State.abandon, hb, if_true, hw]

/-- What `rst` finds: nothing to abandon, or a command that could have written pixels, or payload bytes. -/
theorem abandoned_cases (s : State) :
    (s.busy = false ∨ writeSet s = .nothing) ∨ (∃ n, s.busy = true ∧ writeSet s = .pixels n) ∨
      (∃ n, s.busy = true ∧ writeSet s = .payload n) := by
  cases s.busy with
  | false => exact .inl (.inl rfl)
  | true =>
    cases writeSet s with
    | nothing => exact .inl (.inr rfl)
    | pixels n => exact .inr (.inl ⟨n, rfl, rfl⟩)
    | payload n => exact .inr (.inr ⟨n, rfl, rfl⟩)

theorem hardReset_frame (s : State) :
    (hardReset s).par = s.par ∧ (hardReset s).host = s.host ∧ (hardReset s).sched = s.sched := by
  rcases abandoned_cases s with h | ⟨n, hb, hw⟩ | ⟨n, hb, hw⟩
  · exact hardReset_of_kept h ▸ ⟨rfl, rfl, rfl⟩
  · exact hardReset_of_pixels hb hw ▸ ⟨rfl, rfl, rfl⟩
  · exact hardReset_of_payload hb hw ▸ ⟨rfl, rfl, rfl⟩

/-- Fresh draws go into the image's channels only, so channel 3 of a 3-channel image stays (20_memory.md R65). -/
theorem hardReset_keeps_channel_three {s : State} (h3 : s.imgChannels = 3) (j : Nat) :
    (hardReset s).pixByte (4 * j + 3) = s.pixByte (4 * j + 3) := by
  rcases abandoned_cases s with h | ⟨n, hb, hw⟩ | ⟨n, hb, hw⟩
  · rw [hardReset_of_kept h]
    rfl
  · rw [hardReset_of_pixels hb hw]
    exact (freshPixels_fitsImage s n hw).read_channel_three h3 j
  · rw [hardReset_of_payload hb hw]
    rfl

/-- Settles O12: the memory clause names the cases in which there is nothing to abandon; using up the turn changes
none of them. -/
theorem hardwareReset : Obligations.HardwareReset := by
  intro s hn
  have hword : (hardReset (spendTurn s)).statusWord = 0 := statusWord_of_reset rfl rfl
  obtain ⟨hpar, hhost, hsched⟩ := hardReset_frame (spendTurn s)
  refine ⟨_, step_of_nextTurn_rst hn, rfl, readReg_of_reset rfl hword, hword, rfl, irq_of_not_done rfl, hpar,
    hhost, hsched, fun hcase => ?_, fun h3 => hardReset_keeps_channel_three (s := spendTurn s) h3⟩
  have hkept : s.busy = false ∨ writeSet s = .nothing := by
    rcases hcase with hidle | hnothing | ⟨hencode, hdecode, hfill⟩ | ⟨hop, hcheck⟩ | ⟨hop, hcheck⟩ |
      ⟨hop, hcheck⟩
    · exact .inl hidle
    · exact .inr hnothing
    · exact .inr (writeSet_of_other hencode hdecode hfill)
    · exact .inr (by rw [writeSet_encode hop, if_neg hcheck])
    · exact .inr (by rw [writeSet_decode hop, if_neg hcheck])
    · exact .inr (by rw [writeSet_fill hop, if_neg hcheck])
  rw [hardReset_of_kept (s := spendTurn s) hkept]
  exact ⟨rfl, rfl, rfl⟩

/-! ## Fresh draws in pixels -/

/-- Pixels that fit the image read back, each channel below the image's channel count at its own byte. -/
theorem FitsImage.read_written {s : State} {gs : List (List Byte)} (h : FitsImage s gs) {i k : Nat}
    (hi : i < gs.length) (hk : k < gs[i].length) :
    Memory.read .pix (putPixels s.width s.pix 0 gs) (s.pixelOffset i + k) = gs[i][k] := by
  obtain ⟨⟨⟨hw, -⟩, hch⟩, -, hrow⟩ := h
  have hread := read_putPixels_inside s.width gs s.pix 0 i k hw
    (fun g hg => by rw [hrow g hg]; omega) hi hk
  rwa [Nat.zero_add] at hread

/-- Pixels that fit the image leave alone every byte that is no channel of one of them. -/
theorem FitsImage.read_other {s : State} {gs : List (List Byte)} (h : FitsImage s gs) {b : Nat}
    (hb : ∀ i < gs.length, ∀ k < s.imgChannels, b ≠ s.pixelOffset i + k) :
    Memory.read .pix (putPixels s.width s.pix 0 gs) b = Memory.read .pix s.pix b := by
  refine read_putPixels_outside s.width gs s.pix 0 b fun i hi => ?_
  have hrow := h.row _ (List.getElem_mem hi)
  rw [Nat.zero_add]
  by_contra hin
  have hne : b ≠ baseAt s.width i + (b - baseAt s.width i) := hb i hi _ (by omega)
  omega

/-- `rst` leaves draw number `draws + i` in the image's channels of the pixel at logical index i. -/
theorem pixByte_hardReset_fresh {s : State} {n : Nat} (hb : s.busy = true) (hw : writeSet s = .pixels n)
    {i k : Nat} (hi : i < n) (hk : k < s.imgChannels) :
    (hardReset s).pixByte (s.pixelOffset i + k) = byteOf (Config.freeWord (s.draws + i)) k := by
  have hread := (freshPixels_fitsImage s n hw).read_written (i := i) (k := k) (by simpa) (by simpa)
  rw [State.pixByte, hardReset_of_pixels hb hw, hread]
  simp only [freshPixels_getElem, bytesLE_getElem]

theorem encodeCheck_of_runs {s : State} (h : EncodeRuns s) : encodeCheck s = none := by
  rw [encodeCheck_of_legal h.img h.codec h.plen h.sameCh h.nonempty, if_pos h.fits]

/-- Settles O13: ENCODE could have written the header pixel and NPIX(P) data pixels, in the C = CI channels. -/
theorem abandonedEncodeLeavesFreshWords : Obligations.AbandonedEncodeLeavesFreshWords := by
  intro s hb hop h
  have hw : writeSet s = .pixels (1 + s.codec.npix s.paddedFrameLength) := by
    rw [writeSet_encode hop, if_pos (encodeCheck_of_runs h)]
  have hreset := hardReset_of_pixels hb hw
  have hfit := freshPixels_fitsImage s _ hw
  rw [← h.sameCh]
  refine ⟨by rw [hreset], fun i hi k hk => pixByte_hardReset_fresh hb hw (by omega) hk, fun b hout => ?_,
    by rw [hreset]⟩
  rw [State.pixByte, hreset]
  refine hfit.read_other fun i hi => hout i ?_
  rw [freshPixels_length] at hi
  omega

/-- Settles O14: FILL could have written every pixel of the image. -/
theorem abandonedFillLeavesFreshWords : Obligations.AbandonedFillLeavesFreshWords := by
  intro s hb hop himg
  have hw : writeSet s = .pixels s.numPixels := by
    rw [writeSet_fill hop, if_pos ((fillCheck_eq_none_iff s).mpr himg)]
  have hreset := hardReset_of_pixels hb hw
  have hfit := freshPixels_fitsImage s _ hw
  refine ⟨by rw [hreset], fun i hi k hk => pixByte_hardReset_fresh hb hw hi hk, fun j k hk hout => ?_,
    by rw [hreset]⟩
  rw [State.pixByte, hreset]
  rcases hout with hword | hchan
  · exact hfit.read_past_image _ (by omega)
  · exact hfit.read_past_channels j k hk hchan

/-! ## Fresh draws in the payload -/

@[simp] theorem freshBytes_getElem (d n k : Nat) (hk : k < (freshBytes d n).length) :
    (freshBytes d n)[k] = byteOf (Config.freeWord (d + k)) 0 := by simp [freshBytes]

/-- Settles O15: DECODE could have written the payload part of its frame. -/
theorem abandonedDecodeLeavesFreshBytes : Obligations.AbandonedDecodeLeavesFreshBytes := by
  intro s hb hop h
  have hw : writeSet s = .payload (decodeLength s - s.fixedPart) := by
    rw [writeSet_decode hop, if_pos (decodeCheck_of_runs h)]
  have hreset := hardReset_of_payload hb hw
  refine ⟨by rw [hreset], fun k hk => ?_, fun k hk => ?_, by rw [hreset]⟩
  · have hread := read_writeBytes_inside .pay (freshBytes s.draws (decodeLength s - s.fixedPart)) s.pay 0 k
      (by simpa)
    rw [Nat.zero_add] at hread
    rw [State.payByte, hreset, hread, freshBytes_getElem, byteOf, BitVec.setWidth_eq_extractLsb' (by decide)]
  · rw [State.payByte, hreset]
    exact read_writeBytes_outside .pay _ s.pay 0 k (.inr (by rwa [Nat.zero_add, freshBytes_length]))

/-! ## The state after reset -/

theorem wf_nil (bound : Nat) : Memory.wf bound [] := ⟨.nil, nofun⟩

/-- Settles O10: the reference parameters are legal (00_scope.md R6), and no byte is listed. -/
theorem resetHasInv : Obligations.ResetHasInv :=
  .of_idle rfl (by decide) (wf_nil _) (wf_nil _) nofun

/-- Every command but SRESET checks DimOK first (60_exceptions.md R203). -/
theorem firstFailingCheck_of_not_dimOK {s : State} (hdim : ¬s.DimOK) {i : Instr} (hi : i ≠ .sreset) :
    firstFailingCheck i s = some .illegalConfig := by
  cases i with
  | encode | decode => exact if_pos (.inl fun hcfg => hdim hcfg.1.1)
  | fill => exact if_neg fun himg => hdim himg.1
  | addr | index => exact if_pos hdim
  | capacity => exact if_pos (.inl hdim)
  | sreset => exact absurd rfl hi

/-- Settles O11: with IMG_W = 0 the image is not legal, so each command raises; the idle host with nothing to do has
the turn. -/
theorem stateAfterReset : Obligations.StateAfterReset := by
  have hword : State.reset.statusWord = 0 := statusWord_of_reset rfl rfl
  refine ⟨readReg_of_reset rfl hword, hword, rfl, rfl, rfl, rfl, rfl, fun i hi => ?_, ?_⟩
  · have hdim : ¬State.reset.DimOK := by decide
    obtain ⟨effect, hexec, -⟩ := exec_eq_perform i State.reset hi
    rw [hexec, firstFailingCheck_of_not_dimOK hdim hi, perform_some]
  · exact step_of_nextTurn_host State.reset (nextTurn_of_idle State.reset rfl rfl)

end Sys2Proof.Machine
end
